-- ==== Sys2Proof/Word.lean ====
section
/-! DEFINITION. The word types of the model: the widths spec/00_scope.md R3 fixes. -/

namespace Sys2Proof

/-- One byte of linear memory (R20: the unit of addressing is the byte). -/
abbrev Byte := BitVec 8

/-- A 16-bit value: a selector (R3 `SEL_BITS`). -/
abbrev Half := BitVec 16

/-- A 32-bit value: an offset, a linear address, a segment base (R3), a doubleword of a descriptor (R26). -/
abbrev Word := BitVec 32

end Sys2Proof
end

