-- ==== Sys2Proof/Config.lean ====
section
/-! DEFINITION. What the spec leaves to a parameter: DTR_LIMIT_BITS (R4, D8) and the free values. -/

namespace Sys2Proof

/-- `DTR_LIMIT_BITS` of R4 at its default, 16: the limit held in GDTR and LDTR (D8; log 11). -/
abbrev DtrLimit := BitVec 16

/-- The most bytes one instruction may have, its prefix bytes included (PRESUMED, the family's; log 4). -/
abbrev Config.maxInstrBytes : Nat := 15

/-- The free values: the `n`-th value drawn by the machine where the spec gives a value no result
(log 15). It has no body: no statement can rest on what it is. -/
opaque Config.freeWord : Nat → Word

end Sys2Proof
end

