-- ==== Sys2Proof/Syntax.lean ====
section
/-! DEFINITION. The instructions: one constructor of `Instr` for each row of spec/opcode_table.json, and the
operand forms of spec/30_encoding.md section 4 (ModR/M, SIB, displacement, the bytes before the opcode). -/

namespace Sys2Proof

/-- The general registers an operand can name (PRESUMED, the family's; log 6), in code order 0 to 7. -/
inductive Reg where
  | eax | ecx | edx | ebx | esp | ebp | esi | edi
  deriving DecidableEq, Repr

/-- The six segment registers (R5; in the order of Figure 5-7). -/
inductive SegName where
  | cs | ss | ds | es | fs | gs
  deriving DecidableEq, Repr

/-- The displacement after a 32-bit ModR/M: mod 0 none, mod 1 one byte, mod 2 four bytes (log 3). -/
inductive Disp where
  | none
  | d8 (v : Byte)
  | d32 (v : Word)
  deriving DecidableEq, Repr

/-- The displacement after a 16-bit ModR/M: mod 0 none, mod 1 one byte, mod 2 two bytes (log 3). -/
inductive Disp16 where
  | none
  | d8 (v : Byte)
  | d16 (v : Half)
  deriving DecidableEq, Repr

/-- The eight base forms of 16-bit addressing, in r/m order 0 to 7 (log 3). -/
inductive Base16 where
  | bxSi | bxDi | bpSi | bpDi | si | di | bp | bx
  deriving DecidableEq, Repr

/-- A memory operand (log 3). The first four forms are 32-bit addressing, the last two 16-bit addressing. -/
inductive MemOp where
  /-- `[reg + disp]`, no SIB byte. -/
  | base (b : Reg) (d : Disp)
  /-- `[disp32]`, mod 0 r/m 5. -/
  | abs (a : Word)
  /-- `[b + x * 2^sc + disp]`, a SIB byte; the index code of ESP means no index. -/
  | sib (b x : Reg) (sc : BitVec 2) (d : Disp)
  /-- `[x * 2^sc + disp32]`, mod 0 with the SIB base code 5. -/
  | sibAbs (x : Reg) (sc : BitVec 2) (a : Word)
  /-- 16-bit `[form + disp]`. -/
  | base16 (f : Base16) (d : Disp16)
  /-- 16-bit `[disp16]`, mod 0 r/m 6. -/
  | abs16 (a : Half)
  deriving DecidableEq, Repr

/-- An r/m operand: a register (mod 3) or memory. -/
inductive RM where
  | reg (r : Reg)
  | mem (m : MemOp)
  deriving DecidableEq, Repr

/-- The bytes before the opcode (30_encoding.md section 4 "optional prefix bytes"; log 4):
`op16` the operand-size byte 66, `addr16` the address-size byte 67, `seg` a segment override. -/
structure Prefixes where
  op16 : Bool
  addr16 : Bool
  seg : Option SegName
  deriving DecidableEq, Repr

/-- The instructions, one constructor per row of opcode_table.json, in the table's order. -/
inductive Instr where
  /-- LGDT m (R66). -/
  | lgdt (p : Prefixes) (m : MemOp)
  /-- SGDT m (R67). -/
  | sgdt (p : Prefixes) (m : MemOp)
  /-- LLDT r/m16 (R68). -/
  | lldt (p : Prefixes) (rm : RM)
  /-- SLDT r/m16 (R69). -/
  | sldt (p : Prefixes) (rm : RM)
  /-- MOV Sreg, r/m16 (R71). -/
  | movToSreg (p : Prefixes) (s : SegName) (rm : RM)
  /-- POP ES (R72). -/
  | popEs (p : Prefixes)
  /-- POP SS (R72). -/
  | popSs (p : Prefixes)
  /-- POP DS (R72). -/
  | popDs (p : Prefixes)
  /-- POP FS (R72). -/
  | popFs (p : Prefixes)
  /-- POP GS (R72). -/
  | popGs (p : Prefixes)
  /-- LDS r, m16:32 (R73). -/
  | lds (p : Prefixes) (g : Reg) (m : MemOp)
  /-- LSS r, m16:32 (R74). -/
  | lss (p : Prefixes) (g : Reg) (m : MemOp)
  /-- LGS r, m16:32 (R75). -/
  | lgs (p : Prefixes) (g : Reg) (m : MemOp)
  /-- LFS r, m16:32 (R76). -/
  | lfs (p : Prefixes) (g : Reg) (m : MemOp)
  /-- CALL ptr16:32 (R77). -/
  | callPtr (p : Prefixes) (off : Word) (sel : Half)
  /-- CALL m16:32 (R77). -/
  | callMem (p : Prefixes) (m : MemOp)
  /-- JMP ptr16:32 (R78). -/
  | jmpPtr (p : Prefixes) (off : Word) (sel : Half)
  /-- JMP m16:32 (R78). -/
  | jmpMem (p : Prefixes) (m : MemOp)
  /-- LAR r, r/m16 (R80). -/
  | lar (p : Prefixes) (g : Reg) (rm : RM)
  /-- LSL r, r/m16 (R80). -/
  | lsl (p : Prefixes) (g : Reg) (rm : RM)
  /-- VERR r/m16 (R80). -/
  | verr (p : Prefixes) (rm : RM)
  /-- VERW r/m16 (R80). -/
  | verw (p : Prefixes) (rm : RM)
  /-- MOV r/m16, Sreg (R82). -/
  | movFromSreg (p : Prefixes) (s : SegName) (rm : RM)
  /-- PUSH ES (R82). -/
  | pushEs (p : Prefixes)
  /-- PUSH CS (R82). -/
  | pushCs (p : Prefixes)
  /-- PUSH SS (R82). -/
  | pushSs (p : Prefixes)
  /-- PUSH DS (R82). -/
  | pushDs (p : Prefixes)
  /-- PUSH FS (R82). -/
  | pushFs (p : Prefixes)
  /-- PUSH GS (R82). -/
  | pushGs (p : Prefixes)
  deriving DecidableEq, Repr

end Sys2Proof
end

