-- ==== Sys2Proof/WellFormed.lean ====
section
/-! DEFINITION. Which terms of `Instr` an encoding can hold (spec/30_encoding.md section 4, opcode_table.json):
memory forms the ModR/M and SIB bytes can name, under the address size the bytes before the opcode give. -/

namespace Sys2Proof

/-- ESP has no form without a SIB byte, and EBP has no form with mod 0 (those codes mean SIB and disp32). -/
def MemOp.wf : MemOp → Bool
  | .base b d => b != .esp && !(b == .ebp && d == .none)
  | .abs _ => true
  | .sib b _ _ d => !(b == .ebp && d == .none)
  | .sibAbs _ _ _ => true
  | .base16 f d => !(f == .bp && d == .none)
  | .abs16 _ => true

/-- Whether the memory form is one of 16-bit addressing. -/
def MemOp.is16 : MemOp → Bool
  | .base16 _ _ => true
  | .abs16 _ => true
  | .base _ _ => false
  | .abs _ => false
  | .sib _ _ _ _ => false
  | .sibAbs _ _ _ => false

/-- A memory operand under these bytes before the opcode: its form has the address size they give. -/
def MemOp.wfIn (p : Prefixes) (m : MemOp) : Bool :=
  m.wf && m.is16 == p.addr16

/-- An r/m operand under these bytes before the opcode. -/
def RM.wfIn (p : Prefixes) : RM → Bool
  | .reg _ => true
  | .mem m => m.wfIn p

/-- A far pointer's offset has 16 bits under a 16-bit operand size (opcode_table.json, CALL and JMP rows). -/
def farOffWf (p : Prefixes) (off : Word) : Bool :=
  !p.op16 || off.toNat < 65536

/-- The well-formed instructions. MOV may not load CS (R71, U17). -/
def Instr.wf : Instr → Bool
  | .lgdt p m => m.wfIn p
  | .sgdt p m => m.wfIn p
  | .lldt p rm => rm.wfIn p
  | .sldt p rm => rm.wfIn p
  | .movToSreg p s rm => s != .cs && rm.wfIn p
  | .popEs _ => true
  | .popSs _ => true
  | .popDs _ => true
  | .popFs _ => true
  | .popGs _ => true
  | .lds p _ m => m.wfIn p
  | .lss p _ m => m.wfIn p
  | .lgs p _ m => m.wfIn p
  | .lfs p _ m => m.wfIn p
  | .callPtr p off _ => farOffWf p off
  | .callMem p m => m.wfIn p
  | .jmpPtr p off _ => farOffWf p off
  | .jmpMem p m => m.wfIn p
  | .lar p _ rm => rm.wfIn p
  | .lsl p _ rm => rm.wfIn p
  | .verr p rm => rm.wfIn p
  | .verw p rm => rm.wfIn p
  | .movFromSreg p _ rm => rm.wfIn p
  | .pushEs _ => true
  | .pushCs _ => true
  | .pushSs _ => true
  | .pushDs _ => true
  | .pushFs _ => true
  | .pushGs _ => true

end Sys2Proof
end

