-- ==== Sys2Proof/Decode.lean ====
section
/-! DEFINITION. Bytes to instructions and back, from spec/30_encoding.md section 4 and opcode_table.json.
The spec marks both as general knowledge and its own instructions as abstract operations (R60, D15): every byte pattern
here is PRESUMED (log 1), the addressing forms (log 3) and the bytes before the opcode (log 4) are the family's. -/

namespace Sys2Proof

/-- Why bytes are no instruction of the model. Each is a refusal by name, so each is safe: the model stops where the
hardware may go on. -/
inductive DecodeError where
  /-- The bytes end before the instruction does (15 bytes at most, log 4). -/
  | truncated
  /-- F0: LOCK before an instruction of the table (log 4). -/
  | lockByte
  /-- F2 or F3: a repeat byte before an instruction of the table (log 4). -/
  | repeatByte
  /-- A first opcode byte outside the table. -/
  | unknownOpcode (b : Byte)
  /-- A second opcode byte (after 0F) outside the table. -/
  | unknownTwoByte (b : Byte)
  /-- A `reg` field outside the table in an opcode group (0F 00, 0F 01, FF). -/
  | unknownInGroup (opcode : Byte) (reg : BitVec 3)
  /-- mod 3 in a row whose operand is memory only (opcode_table.json "must not be 3"). -/
  | registerOperand
  /-- Segment register numbers 6 and 7 (opcode_table.json "6 and 7 invalid"; log 24). -/
  | badSegmentNumber (n : BitVec 3)
  /-- MOV with CS as destination (R71, U17: a model refuses the form). -/
  | movToCs
  /-- LES, which loads ES and has no rule (R79, U19: refused by name). -/
  | lesHasNoRule
  /-- Far RET, which loads CS and has no rule (R79, U19). -/
  | farReturnHasNoRule
  /-- IRET, which loads CS and has no rule (R79, U19). -/
  | interruptReturnHasNoRule
  /-- INT, INT 3, INTO: software interrupts load CS through gates and have no rule (R79, U19). -/
  | interruptHasNoRule
  deriving DecidableEq, Repr

/-! ## Codes of registers -/

/-- A general register's number in a `reg`, `r/m`, base or index field. -/
def Reg.code : Reg → BitVec 3
  | .eax => 0 | .ecx => 1 | .edx => 2 | .ebx => 3 | .esp => 4 | .ebp => 5 | .esi => 6 | .edi => 7

/-- The general register with this number. -/
def Reg.ofCode (c : BitVec 3) : Reg :=
  if c = 0 then .eax else if c = 1 then .ecx else if c = 2 then .edx else if c = 3 then .ebx
  else if c = 4 then .esp else if c = 5 then .ebp else if c = 6 then .esi else .edi

/-- "Segment registers are numbered ES = 0, CS = 1, SS = 2, DS = 3, FS = 4, GS = 5" (30_encoding.md section 4). -/
def SegName.code : SegName → BitVec 3
  | .es => 0 | .cs => 1 | .ss => 2 | .ds => 3 | .fs => 4 | .gs => 5

/-- The segment register with this number, if any. -/
def SegName.ofCode (c : BitVec 3) : Except DecodeError SegName :=
  if c = 0 then .ok .es else if c = 1 then .ok .cs else if c = 2 then .ok .ss else if c = 3 then .ok .ds
  else if c = 4 then .ok .fs else if c = 5 then .ok .gs else .error (.badSegmentNumber c)

/-- The r/m number of a 16-bit base form. -/
def Base16.code : Base16 → BitVec 3
  | .bxSi => 0 | .bxDi => 1 | .bpSi => 2 | .bpDi => 3 | .si => 4 | .di => 5 | .bp => 6 | .bx => 7

/-- The 16-bit base form with this r/m number. -/
def Base16.ofCode (c : BitVec 3) : Base16 :=
  if c = 0 then .bxSi else if c = 1 then .bxDi else if c = 2 then .bpSi else if c = 3 then .bpDi
  else if c = 4 then .si else if c = 5 then .di else if c = 6 then .bp else .bx

/-! ## Little-endian pieces of an instruction (R46, D1) -/

/-- The bytes of a 16-bit value, lowest first. -/
def bytes16 (v : Half) : List Byte := [v.extractLsb' 0 8, v.extractLsb' 8 8]

/-- The bytes of a 32-bit value, lowest first. -/
def bytes32 (v : Word) : List Byte :=
  [v.extractLsb' 0 8, v.extractLsb' 8 8, v.extractLsb' 16 8, v.extractLsb' 24 8]

/-- One byte off the front. -/
def take8 : List Byte → Except DecodeError (Byte × List Byte)
  | b :: rest => .ok (b, rest)
  | [] => .error .truncated

/-- A 16-bit value off the front. -/
def take16 : List Byte → Except DecodeError (Half × List Byte)
  | b0 :: b1 :: rest => .ok (b1 ++ b0, rest)
  | _ => .error .truncated

/-- A 32-bit value off the front. -/
def take32 : List Byte → Except DecodeError (Word × List Byte)
  | b0 :: b1 :: b2 :: b3 :: rest => .ok (b3 ++ b2 ++ b1 ++ b0, rest)
  | _ => .error .truncated

/-! ## The bytes before the opcode (log 4) -/

/-- The segment a segment-override byte names. -/
def segOverride (b : Byte) : Option SegName :=
  if b = 0x26 then some .es else if b = 0x2E then some .cs else if b = 0x36 then some .ss
  else if b = 0x3E then some .ds else if b = 0x64 then some .fs else if b = 0x65 then some .gs else none

/-- The override byte of a segment. -/
def overrideByte : SegName → Byte
  | .es => 0x26 | .cs => 0x2E | .ss => 0x36 | .ds => 0x3E | .fs => 0x64 | .gs => 0x65

/-- What one byte before the opcode adds, if it is such a byte: a repeated one changes nothing, the last override wins. -/
def addLeading (p : Prefixes) (b : Byte) : Option Prefixes :=
  if b = 0x66 then some { p with op16 := true }
  else if b = 0x67 then some { p with addr16 := true }
  else match segOverride b with
    | some s => some { p with seg := some s }
    | none => none

/-- Take every byte before the opcode. -/
def takeLeading : Prefixes → List Byte → Prefixes × List Byte
  | p, [] => (p, [])
  | p, b :: bs =>
    match addLeading p b with
    | some q => takeLeading q bs
    | none => (p, b :: bs)

/-- The bytes before the opcode, each at most once: override, operand size, address size. -/
def encodeLeading (p : Prefixes) : List Byte :=
  (match p.seg with | some s => [overrideByte s] | none => [])
    ++ (if p.op16 then [0x66] else []) ++ (if p.addr16 then [0x67] else [])

/-! ## ModR/M operands (log 3) -/

/-- The displacement mod 0, 1 or 2 asks for, 32-bit addressing. -/
def takeDisp (mod : BitVec 2) (bs : List Byte) : Except DecodeError (Disp × List Byte) :=
  if mod = 0 then .ok (.none, bs)
  else if mod = 1 then do
    let (v, rest) ← take8 bs
    .ok (.d8 v, rest)
  else do
    let (v, rest) ← take32 bs
    .ok (.d32 v, rest)

/-- The displacement mod 0, 1 or 2 asks for, 16-bit addressing. -/
def takeDisp16 (mod : BitVec 2) (bs : List Byte) : Except DecodeError (Disp16 × List Byte) :=
  if mod = 0 then .ok (.none, bs)
  else if mod = 1 then do
    let (v, rest) ← take8 bs
    .ok (.d8 v, rest)
  else do
    let (v, rest) ← take16 bs
    .ok (.d16 v, rest)

/-- A memory operand of 32-bit addressing, its ModR/M byte already taken. -/
def takeMem32 (mod : BitVec 2) (rm : BitVec 3) (bs : List Byte) : Except DecodeError (MemOp × List Byte) :=
  if rm = 4 then do
    let (sib, bs) ← take8 bs
    let sc := sib.extractLsb' 6 2
    let x := Reg.ofCode (sib.extractLsb' 3 3)
    let b := sib.extractLsb' 0 3
    if mod = 0 ∧ b = 5 then do
      let (a, rest) ← take32 bs
      .ok (.sibAbs x sc a, rest)
    else do
      let (d, rest) ← takeDisp mod bs
      .ok (.sib (Reg.ofCode b) x sc d, rest)
  else if mod = 0 ∧ rm = 5 then do
    let (a, rest) ← take32 bs
    .ok (.abs a, rest)
  else do
    let (d, rest) ← takeDisp mod bs
    .ok (.base (Reg.ofCode rm) d, rest)

/-- A memory operand of 16-bit addressing, its ModR/M byte already taken. -/
def takeMem16 (mod : BitVec 2) (rm : BitVec 3) (bs : List Byte) : Except DecodeError (MemOp × List Byte) :=
  if mod = 0 ∧ rm = 6 then do
    let (a, rest) ← take16 bs
    .ok (.abs16 a, rest)
  else do
    let (d, rest) ← takeDisp16 mod bs
    .ok (.base16 (Base16.ofCode rm) d, rest)

/-- A ModR/M byte `mod(2) reg(3) r/m(3)` and what follows it: the `reg` field and the r/m operand. -/
def takeModRM (p : Prefixes) (bs : List Byte) : Except DecodeError (BitVec 3 × RM × List Byte) := do
  let (b, bs) ← take8 bs
  let mod := b.extractLsb' 6 2
  let reg := b.extractLsb' 3 3
  let rm := b.extractLsb' 0 3
  if mod = 3 then .ok (reg, .reg (Reg.ofCode rm), bs)
  else if p.addr16 then do
    let (m, rest) ← takeMem16 mod rm bs
    .ok (reg, .mem m, rest)
  else do
    let (m, rest) ← takeMem32 mod rm bs
    .ok (reg, .mem m, rest)

/-- The memory operand of a memory-only row. -/
def memOnly : RM → Except DecodeError MemOp
  | .mem m => .ok m
  | .reg _ => .error .registerOperand

/-- mod of a displacement. -/
def Disp.mod : Disp → BitVec 2
  | .none => 0 | .d8 _ => 1 | .d32 _ => 2

/-- Bytes of a displacement. -/
def Disp.bytes : Disp → List Byte
  | .none => [] | .d8 v => [v] | .d32 v => bytes32 v

/-- mod of a 16-bit-addressing displacement. -/
def Disp16.mod : Disp16 → BitVec 2
  | .none => 0 | .d8 _ => 1 | .d16 _ => 2

/-- Bytes of a 16-bit-addressing displacement. -/
def Disp16.bytes : Disp16 → List Byte
  | .none => [] | .d8 v => [v] | .d16 v => bytes16 v

/-- A byte of three fields of 2, 3 and 3 bits (ModR/M and SIB). -/
def fields233 (a : BitVec 2) (b c : BitVec 3) : Byte := a ++ b ++ c

/-- ModR/M, SIB and displacement of an operand, with `g` in the `reg` field. -/
def encodeModRM (g : BitVec 3) : RM → List Byte
  | .reg r => [fields233 3 g r.code]
  | .mem (.base b d) => fields233 d.mod g b.code :: d.bytes
  | .mem (.abs a) => fields233 0 g 5 :: bytes32 a
  | .mem (.sib b x sc d) => fields233 d.mod g 4 :: fields233 sc x.code b.code :: d.bytes
  | .mem (.sibAbs x sc a) => fields233 0 g 4 :: fields233 sc x.code 5 :: bytes32 a
  | .mem (.base16 f d) => fields233 d.mod g f.code :: d.bytes
  | .mem (.abs16 a) => fields233 0 g 6 :: bytes16 a

/-! ## Opcodes -/

/-- The opcodes of the table: rows that differ only in the `reg` field of ModR/M share one. -/
inductive Opcode where
  /-- 0F 00: SLDT /0, LLDT /2, VERR /4, VERW /5. -/
  | group00
  /-- 0F 01: SGDT /0, LGDT /2. -/
  | group01
  /-- FF: CALL /3, JMP /5, m16:32. -/
  | groupFF
  | movToSreg
  | movFromSreg
  | push (s : SegName)
  | pop (s : SegName)
  | lds
  | lss
  | lfs
  | lgs
  | lar
  | lsl
  | callPtr
  | jmpPtr
  deriving DecidableEq, Repr

/-- The second opcode byte, after 0F. -/
def twoByteOpcode (b : Byte) : Except DecodeError Opcode :=
  if b = 0x00 then .ok .group00 else if b = 0x01 then .ok .group01
  else if b = 0x02 then .ok .lar else if b = 0x03 then .ok .lsl
  else if b = 0xA0 then .ok (.push .fs) else if b = 0xA1 then .ok (.pop .fs)
  else if b = 0xA8 then .ok (.push .gs) else if b = 0xA9 then .ok (.pop .gs)
  else if b = 0xB2 then .ok .lss else if b = 0xB4 then .ok .lfs else if b = 0xB5 then .ok .lgs
  else .error (.unknownTwoByte b)

/-- The first opcode byte when it is not 0F. Loaders of segment registers without a rule are refused by name (U19;
LES's byte is in the spec's table, the bytes of the others are PRESUMED, log 31). -/
def oneByteOpcode (b : Byte) : Except DecodeError Opcode :=
  if b = 0x06 then .ok (.push .es) else if b = 0x07 then .ok (.pop .es)
  else if b = 0x0E then .ok (.push .cs)
  else if b = 0x16 then .ok (.push .ss) else if b = 0x17 then .ok (.pop .ss)
  else if b = 0x1E then .ok (.push .ds) else if b = 0x1F then .ok (.pop .ds)
  else if b = 0x8C then .ok .movFromSreg else if b = 0x8E then .ok .movToSreg
  else if b = 0xC5 then .ok .lds
  else if b = 0x9A then .ok .callPtr else if b = 0xEA then .ok .jmpPtr
  else if b = 0xFF then .ok .groupFF
  else if b = 0xC4 then .error .lesHasNoRule
  else if b = 0xCA ∨ b = 0xCB then .error .farReturnHasNoRule
  else if b = 0xCC ∨ b = 0xCD ∨ b = 0xCE then .error .interruptHasNoRule
  else if b = 0xCF then .error .interruptReturnHasNoRule
  else if b = 0xF0 then .error .lockByte
  else if b = 0xF2 ∨ b = 0xF3 then .error .repeatByte
  else .error (.unknownOpcode b)

/-- One or two opcode bytes: "a first byte 0x0F announces a second". -/
def takeOpcode (bs : List Byte) : Except DecodeError (Opcode × List Byte) := do
  let (b, bs) ← take8 bs
  if b = 0x0F then do
    let (c, rest) ← take8 bs
    let op ← twoByteOpcode c
    .ok (op, rest)
  else do
    let op ← oneByteOpcode b
    .ok (op, bs)

/-- The opcode bytes. POP CS is none of the table's: its bytes here are never used. -/
def Opcode.bytes : Opcode → List Byte
  | .group00 => [0x0F, 0x00]
  | .group01 => [0x0F, 0x01]
  | .groupFF => [0xFF]
  | .movToSreg => [0x8E]
  | .movFromSreg => [0x8C]
  | .push .es => [0x06]
  | .push .cs => [0x0E]
  | .push .ss => [0x16]
  | .push .ds => [0x1E]
  | .push .fs => [0x0F, 0xA0]
  | .push .gs => [0x0F, 0xA8]
  | .pop .es => [0x07]
  | .pop .cs => []
  | .pop .ss => [0x17]
  | .pop .ds => [0x1F]
  | .pop .fs => [0x0F, 0xA1]
  | .pop .gs => [0x0F, 0xA9]
  | .lds => [0xC5]
  | .lss => [0x0F, 0xB2]
  | .lfs => [0x0F, 0xB4]
  | .lgs => [0x0F, 0xB5]
  | .lar => [0x0F, 0x02]
  | .lsl => [0x0F, 0x03]
  | .callPtr => [0x9A]
  | .jmpPtr => [0xEA]

/-! ## Instructions -/

/-- The rows of 0F 00. -/
def ofGroup00 (p : Prefixes) (reg : BitVec 3) (rm : RM) : Except DecodeError Instr :=
  if reg = 0 then .ok (.sldt p rm) else if reg = 2 then .ok (.lldt p rm)
  else if reg = 4 then .ok (.verr p rm) else if reg = 5 then .ok (.verw p rm)
  else .error (.unknownInGroup 0x00 reg)

/-- The rows of 0F 01. -/
def ofGroup01 (p : Prefixes) (reg : BitVec 3) (rm : RM) : Except DecodeError Instr :=
  if reg = 0 then do .ok (.sgdt p (← memOnly rm))
  else if reg = 2 then do .ok (.lgdt p (← memOnly rm))
  else .error (.unknownInGroup 0x01 reg)

/-- The rows of FF. -/
def ofGroupFF (p : Prefixes) (reg : BitVec 3) (rm : RM) : Except DecodeError Instr :=
  if reg = 3 then do .ok (.callMem p (← memOnly rm))
  else if reg = 5 then do .ok (.jmpMem p (← memOnly rm))
  else .error (.unknownInGroup 0xFF reg)

/-- The instruction of a PUSH opcode. -/
def ofPush (p : Prefixes) : SegName → Instr
  | .es => .pushEs p | .cs => .pushCs p | .ss => .pushSs p
  | .ds => .pushDs p | .fs => .pushFs p | .gs => .pushGs p

/-- The instruction of a POP opcode; there is no POP CS. -/
def ofPop (p : Prefixes) : SegName → Except DecodeError Instr
  | .es => .ok (.popEs p) | .ss => .ok (.popSs p) | .ds => .ok (.popDs p)
  | .fs => .ok (.popFs p) | .gs => .ok (.popGs p) | .cs => .error (.unknownOpcode 0x0F)

/-- An immediate far pointer: the offset (4 bytes, or 2 with a 16-bit operand size), then the selector. -/
def takeFar (p : Prefixes) (bs : List Byte) : Except DecodeError (Word × Half × List Byte) :=
  if p.op16 then do
    let (off, bs) ← take16 bs
    let (sel, rest) ← take16 bs
    .ok (off.setWidth 32, sel, rest)
  else do
    let (off, bs) ← take32 bs
    let (sel, rest) ← take16 bs
    .ok (off, sel, rest)

/-- The bytes of an immediate far pointer. -/
def encodeFar (p : Prefixes) (off : Word) (sel : Half) : List Byte :=
  (if p.op16 then bytes16 (off.setWidth 16) else bytes32 off) ++ bytes16 sel

/-- What follows the opcode, and the instruction it completes. -/
def takeOperands (p : Prefixes) (op : Opcode) (bs : List Byte) : Except DecodeError (Instr × List Byte) :=
  match op with
  | .group00 => do
    let (reg, rm, rest) ← takeModRM p bs
    .ok (← ofGroup00 p reg rm, rest)
  | .group01 => do
    let (reg, rm, rest) ← takeModRM p bs
    .ok (← ofGroup01 p reg rm, rest)
  | .groupFF => do
    let (reg, rm, rest) ← takeModRM p bs
    .ok (← ofGroupFF p reg rm, rest)
  | .movToSreg => do
    let (reg, rm, rest) ← takeModRM p bs
    let s ← SegName.ofCode reg
    if s = .cs then .error .movToCs else .ok (.movToSreg p s rm, rest)
  | .movFromSreg => do
    let (reg, rm, rest) ← takeModRM p bs
    .ok (.movFromSreg p (← SegName.ofCode reg) rm, rest)
  | .push s => .ok (ofPush p s, bs)
  | .pop s => do .ok (← ofPop p s, bs)
  | .lds => do
    let (reg, rm, rest) ← takeModRM p bs
    .ok (.lds p (Reg.ofCode reg) (← memOnly rm), rest)
  | .lss => do
    let (reg, rm, rest) ← takeModRM p bs
    .ok (.lss p (Reg.ofCode reg) (← memOnly rm), rest)
  | .lfs => do
    let (reg, rm, rest) ← takeModRM p bs
    .ok (.lfs p (Reg.ofCode reg) (← memOnly rm), rest)
  | .lgs => do
    let (reg, rm, rest) ← takeModRM p bs
    .ok (.lgs p (Reg.ofCode reg) (← memOnly rm), rest)
  | .lar => do
    let (reg, rm, rest) ← takeModRM p bs
    .ok (.lar p (Reg.ofCode reg) rm, rest)
  | .lsl => do
    let (reg, rm, rest) ← takeModRM p bs
    .ok (.lsl p (Reg.ofCode reg) rm, rest)
  | .callPtr => do
    let (off, sel, rest) ← takeFar p bs
    .ok (.callPtr p off sel, rest)
  | .jmpPtr => do
    let (off, sel, rest) ← takeFar p bs
    .ok (.jmpPtr p off sel, rest)

/-- The decoder: the instruction at the front of the bytes and the bytes after it, or why there is none. -/
def decode (bs : List Byte) : Except DecodeError (Instr × List Byte) := do
  let (p, bs) := takeLeading ⟨false, false, none⟩ bs
  let (op, bs) ← takeOpcode bs
  takeOperands p op bs

/-- An instruction's bytes after the ones before the opcode. -/
def encodeBody : Instr → List Byte
  | .lgdt _ m => Opcode.group01.bytes ++ encodeModRM 2 (.mem m)
  | .sgdt _ m => Opcode.group01.bytes ++ encodeModRM 0 (.mem m)
  | .lldt _ rm => Opcode.group00.bytes ++ encodeModRM 2 rm
  | .sldt _ rm => Opcode.group00.bytes ++ encodeModRM 0 rm
  | .movToSreg _ s rm => Opcode.movToSreg.bytes ++ encodeModRM s.code rm
  | .popEs _ => (Opcode.pop .es).bytes
  | .popSs _ => (Opcode.pop .ss).bytes
  | .popDs _ => (Opcode.pop .ds).bytes
  | .popFs _ => (Opcode.pop .fs).bytes
  | .popGs _ => (Opcode.pop .gs).bytes
  | .lds _ g m => Opcode.lds.bytes ++ encodeModRM g.code (.mem m)
  | .lss _ g m => Opcode.lss.bytes ++ encodeModRM g.code (.mem m)
  | .lgs _ g m => Opcode.lgs.bytes ++ encodeModRM g.code (.mem m)
  | .lfs _ g m => Opcode.lfs.bytes ++ encodeModRM g.code (.mem m)
  | .callPtr p off sel => Opcode.callPtr.bytes ++ encodeFar p off sel
  | .callMem _ m => Opcode.groupFF.bytes ++ encodeModRM 3 (.mem m)
  | .jmpPtr p off sel => Opcode.jmpPtr.bytes ++ encodeFar p off sel
  | .jmpMem _ m => Opcode.groupFF.bytes ++ encodeModRM 5 (.mem m)
  | .lar _ g rm => Opcode.lar.bytes ++ encodeModRM g.code rm
  | .lsl _ g rm => Opcode.lsl.bytes ++ encodeModRM g.code rm
  | .verr _ rm => Opcode.group00.bytes ++ encodeModRM 4 rm
  | .verw _ rm => Opcode.group00.bytes ++ encodeModRM 5 rm
  | .movFromSreg _ s rm => Opcode.movFromSreg.bytes ++ encodeModRM s.code rm
  | .pushEs _ => (Opcode.push .es).bytes
  | .pushCs _ => (Opcode.push .cs).bytes
  | .pushSs _ => (Opcode.push .ss).bytes
  | .pushDs _ => (Opcode.push .ds).bytes
  | .pushFs _ => (Opcode.push .fs).bytes
  | .pushGs _ => (Opcode.push .gs).bytes

/-- The bytes before the opcode that an instruction term holds. -/
def Instr.leading : Instr → Prefixes
  | .lgdt p _ => p
  | .sgdt p _ => p
  | .lldt p _ => p
  | .sldt p _ => p
  | .movToSreg p _ _ => p
  | .popEs p => p
  | .popSs p => p
  | .popDs p => p
  | .popFs p => p
  | .popGs p => p
  | .lds p _ _ => p
  | .lss p _ _ => p
  | .lgs p _ _ => p
  | .lfs p _ _ => p
  | .callPtr p _ _ => p
  | .callMem p _ => p
  | .jmpPtr p _ _ => p
  | .jmpMem p _ => p
  | .lar p _ _ => p
  | .lsl p _ _ => p
  | .verr p _ => p
  | .verw p _ => p
  | .movFromSreg p _ _ => p
  | .pushEs p => p
  | .pushCs p => p
  | .pushSs p => p
  | .pushDs p => p
  | .pushFs p => p
  | .pushGs p => p

/-- The encoder: the bytes of an instruction. -/
def encode (i : Instr) : List Byte := encodeLeading i.leading ++ encodeBody i

/-! ## The opcode table's numbering -/

/-- The `k` bytes of a table word. The table reads an encoding as one number, so its FIRST byte is the most significant
(a row `00001111 00000001 mm010rrr` has 0F at bits 23..16 and ModR/M at bits 7..0; log 2). -/
def tableBytes : Nat → Nat → List Byte
  | 0, _ => []
  | k + 1, w => BitVec.ofNat 8 (w >>> (8 * k)) :: tableBytes k w

/-- The bytes of an instruction whose table bits are `w`: zeros above them, to the longest instruction. -/
def tableWindow (nbits w : Nat) : List Byte :=
  (tableBytes (nbits / 8) w ++ List.replicate Config.maxInstrBytes 0).take Config.maxInstrBytes

/-- The instruction the decoder reads from a table word. -/
def decodeTableWord (nbits w : Nat) : Option Instr :=
  match decode (tableWindow nbits w) with
  | .ok (i, _) => some i
  | .error _ => none

end Sys2Proof
end

