-- ==== Sys2Proof/Machine/State.lean ====
section
/-! DEFINITION. The machine's state as plain data (spec/10_state.md), the open parameter ProtCheck as data (R51), the
reasons a step stops (spec/60_exceptions.md R90), and the state after reset (logs 6, 7, 8, 10). -/

namespace Sys2Proof.Machine

/-- The hidden part of a segment register (R8, D14). -/
structure Hidden where
  base : Word
  limit : Word
  attrs : BitVec 12
  deriving DecidableEq, Repr

/-- A segment register: the visible selector and the hidden part (R6). -/
structure SegReg where
  sel : Half
  hid : Hidden
  deriving DecidableEq, Repr

/-- The six segment registers (R5). -/
structure SegFile where
  cs : SegReg
  ss : SegReg
  ds : SegReg
  es : SegReg
  fs : SegReg
  gs : SegReg
  deriving DecidableEq, Repr

/-- The base and limit of a descriptor table (R12, R13). -/
structure TableReg where
  base : Word
  limit : DtrLimit
  deriving DecidableEq, Repr

/-- The general registers (PRESUMED, the family's; log 6). -/
structure Gprs where
  eax : Word
  ecx : Word
  edx : Word
  ebx : Word
  esp : Word
  ebp : Word
  esi : Word
  edi : Word
  deriving DecidableEq, Repr

/-- Linear memory (R20, R53): addresses strictly rising and below 2^32, no entry equal to what an unlisted address reads. -/
abbrev Memory := List Host.Cell

/-! ## The open parameter ProtCheck (R51, D7) as plain data (log 9) -/

/-- The kind of a memory reference (R51: "one of read, write, execute"). -/
inductive RefKind where
  | read | write | execute
  deriving DecidableEq, Repr

/-- What a descriptor is loaded into: a segment register, or LDTR by LLDT (R51, R68). -/
inductive LoadTarget where
  | seg (s : SegName)
  | ldtr
  deriving DecidableEq, Repr

/-- ProtCheck's answer. `pass` and `violation` are R51's two; `notNamed` is for a query no premise names, which the
conservative instantiation refuses ("everything else is refused"). -/
inductive Verdict where
  | pass | violation | notNamed
  deriving DecidableEq, Repr

/-- A pattern of bits: a value fits if it agrees with `value` where `mask` has ones. -/
structure Pattern (w : Nat) where
  mask : BitVec w
  value : BitVec w
  deriving DecidableEq, Repr

/-- How the last byte of a reference lies to the effective limit (R51 `off + n - 1 <= hid.limit`). -/
inductive Bound where
  | anywhere | within | beyond
  deriving DecidableEq, Repr

/-- One rule of `ProtCheck.load(s, sel, D0, D4)`. -/
structure LoadRule where
  targets : List LoadTarget
  sel : Pattern 16
  d0 : Pattern 32
  d4 : Pattern 32
  verdict : Verdict
  deriving DecidableEq, Repr

/-- One rule of `ProtCheck.reference(SREG[s], off, n, kind)`. -/
structure RefRule where
  segs : List SegName
  kinds : List RefKind
  sizes : Option Nat
  sel : Pattern 16
  base : Pattern 32
  limit : Pattern 32
  attrs : Pattern 12
  off : Pattern 32
  bound : Bound
  verdict : Verdict
  deriving DecidableEq, Repr

/-- ProtCheck: the first rule that fits a query answers it; a query that fits none is not named. -/
structure ProtCheck where
  loads : List LoadRule
  references : List RefRule
  deriving DecidableEq, Repr

/-- The machine's state. -/
structure State where
  /-- General registers (log 6). -/
  gpr : Gprs
  /-- Instruction pointer (log 6): during an instruction, the offset of the next one (log 28). -/
  eip : Word
  /-- Flags; ZF is bit 6 (log 34). -/
  eflags : Word
  /-- The six segment registers (R5, R6). -/
  seg : SegFile
  /-- GDTR (R12). -/
  gdtr : TableReg
  /-- LDTR (R13). -/
  ldtr : TableReg
  /-- The selector last given to LLDT (D16; log 14). -/
  ldtrSel : Half
  /-- MODEL's own: the destination of R69, whose form the spec leaves out (log 14). -/
  sldtDst : TableReg
  /-- Linear memory (R19, R20). -/
  mem : Memory
  /-- MODEL's own: the open parameter ProtCheck (R51; log 9). -/
  prot : ProtCheck
  /-- MODEL's own: how many free values have been drawn (log 15). -/
  free : Nat
  deriving DecidableEq, Repr

/-! ## Why a step stops -/

/-- A query to ProtCheck: what R51 passes it, for a load without the AVAILABLE bits of a not-present descriptor (log 37).
DESIGN CHOICE (log 38): R90 leaves open what `ProtectionViolation` records; the model records the query. Safe. -/
inductive ProtQuery where
  | load (t : LoadTarget) (sel : Half) (d0 d4 : Word)
  | reference (s : SegName) (off : Word) (n : Nat) (k : RefKind)
  deriving DecidableEq, Repr

/-- The five exceptions of R90, each a terminal outcome (R98, D10; log 17): no handler runs, so each is safe. -/
inductive Fault where
  /-- R91, by every load of a descriptor whose P bit is 0 (and LLDT's, log 12). Safe. -/
  | segmentNotPresent (sel : Half)
  /-- R92, by every memory reference through a register holding a null selector. Safe. -/
  | nullSegmentReference (s : SegName)
  /-- R93, by a load of CS or SS with a null selector. Safe. -/
  | nullSelectorLoad (s : SegName)
  /-- R94, by a load whose descriptor is not wholly within its table (and LLDT's, log 12). Safe. -/
  | descriptorTableLimit (sel : Half)
  /-- R95, by the open parameter ProtCheck; the query it records is the model's choice (DESIGN CHOICE, log 38). Safe. -/
  | protectionViolation (q : ProtQuery)
  deriving DecidableEq, Repr

/-- Which `require` line of R80 a selector test does not meet (D19, U12). -/
inductive SelTestGap where
  | nullSelector
  | beyondLimit
  | notPresent
  | systemFormat
  deriving DecidableEq, Repr

/-- Where the model gives no meaning. Each is safe: the model stops where the hardware may go on. -/
inductive Refusal where
  /-- An arm of `exec` without a meaning yet. Safe. -/
  | notModelled (mnemonic : String)
  /-- By the fetch: the bytes are no instruction of the table (R79, U19). Safe. -/
  | undecodable (e : DecodeError)
  /-- By MOV with CS as destination (R71, U17), in a term no decoding gives. Safe. -/
  | movToCs
  /-- By far CALL and JMP whose descriptor has S = 0 (R77, R78, U18). Safe. -/
  | farTransferToSystem (sel : Half)
  /-- By the selector tests outside R80's one case (D19, U12). Safe. -/
  | selectorTest (gap : SelTestGap) (sel : Half)
  /-- By a reference whose offsets pass 0xFFFFFFFF (R54, D18, U11). Safe. -/
  | offsetWraps (s : SegName) (off : Word) (n : Nat)
  /-- By a query ProtCheck's data does not name (R51, D7, U9: "everything else is refused"). Safe. -/
  | protCheckNotNamed (q : ProtQuery)
  deriving DecidableEq, Repr

/-! ## Reset -/

/-- The pattern every value fits. -/
def Pattern.any {w : Nat} : Pattern w := ⟨0, 0⟩

/-- ProtCheck at reset (DESIGN CHOICE, log 10): references that end within the limit pass; loads of a format 1
descriptor with bit 21 clear (U1) pass; LLDT of a format 2 descriptor with TYPE 2 and bit 21 clear passes; everything
else is refused (R51). Bit 21 of a not-present descriptor is AVAILABLE and never looked at (R40; log 37). -/
def ProtCheck.reset : ProtCheck where
  loads :=
    [ { targets := [.seg .cs, .seg .ss, .seg .ds, .seg .es, .seg .fs, .seg .gs]
        sel := .any, d0 := .any, d4 := ⟨0x00201000, 0x00001000⟩, verdict := .pass },
      { targets := [.ldtr]
        sel := .any, d0 := .any, d4 := ⟨0x00201F00, 0x00000200⟩, verdict := .pass } ]
  references :=
    [ { segs := [.cs, .ss, .ds, .es, .fs, .gs], kinds := [.read, .write, .execute], sizes := none
        sel := .any, base := .any, limit := .any, attrs := .any, off := .any
        bound := .within, verdict := .pass } ]

/-- A data segment register at reset: the register state 95_test_vectors.md P4 starts from (log 7). -/
def SegReg.resetData : SegReg := ⟨0x0010, ⟨0x00000000, 0xFFFFFFFF, 0xC93⟩⟩

/-- The machine after reset. The spec gives no reset value (R18, R100): the segment and table registers hold the launch
values of the spec's own vectors (DESIGN CHOICE, log 7), the family's registers the family's (PRESUMED, log 6). -/
def State.reset : State where
  gpr := { eax := 0, ecx := 0, edx := 0x00000308, ebx := 0, esp := 0, ebp := 0, esi := 0, edi := 0 }
  eip := 0x0000FFF0
  eflags := 0x00000002
  seg :=
    { cs := ⟨0x0008, ⟨0x00000000, 0xFFFFFFFF, 0xC9B⟩⟩
      ss := .resetData, ds := .resetData, es := .resetData, fs := .resetData, gs := .resetData }
  gdtr := ⟨0x00001000, 0x001F⟩
  ldtr := ⟨0x00020000, 0x000F⟩
  ldtrSel := 0
  sldtDst := ⟨0, 0⟩
  mem := []
  prot := .reset
  free := 0

end Sys2Proof.Machine
end

