-- ==== Sys2Proof/Machine/Descriptor.lean ====
section
/-! DEFINITION. Selectors and descriptors bit by bit: spec/10_state.md R10, R11 and 20_memory.md R24 to R41. -/

namespace Sys2Proof.Machine

/-! ## Selectors (R10, R11) -/

/-- INDEX, bits 15..3. -/
def selIndex (sel : Half) : BitVec 13 := sel.extractLsb' 3 13

/-- TI, bit 2. -/
def selTi (sel : Half) : BitVec 1 := sel.extractLsb' 2 1

/-- RPL, bits 1..0. -/
def selRpl (sel : Half) : BitVec 2 := sel.extractLsb' 0 2

/-- `IsNull(sel)`: index zero and table indicator zero (R11). -/
def isNull (sel : Half) : Bool := selIndex sel == 0 && selTi sel == 0

/-- `Table(sel)`: GDTR if TI is 0, else LDTR (R24). -/
def tableOf (s : State) (sel : Half) : TableReg := if selTi sel = 0 then s.gdtr else s.ldtr

/-- The table-limit test of R50: `8 * index + 7 <= limit`. -/
def inTable (t : TableReg) (sel : Half) : Bool := decide (8 * (selIndex sel).toNat + 7 ≤ t.limit.toNat)

/-- The address of entry `index` of a table: base plus 8 times the index, mod 2^32 (R25, D5). -/
def entryAddr (t : TableReg) (sel : Half) : Word := t.base + 8 * (selIndex sel).setWidth 32

/-- `DescAddr(sel)` (R25). -/
def descAddr (s : State) (sel : Half) : Word := entryAddr (tableOf s sel) sel

/-! ## Descriptors (R26 to R41) -/

/-- A descriptor as fetched: where it lies and its two doublewords (R26, R48). -/
structure Desc where
  addr : Word
  d0 : Word
  d4 : Word
  deriving DecidableEq, Repr

/-- `Base(D0, D4) = D4[31:24] ++ D4[7:0] ++ D0[31:16]` (R29). -/
def descBase (d0 d4 : Word) : Word := d4.extractLsb' 24 8 ++ d4.extractLsb' 0 8 ++ d0.extractLsb' 16 16

/-- `Limit20(D0, D4) = D4[19:16] ++ D0[15:0]` (R30). -/
def descLimit20 (d0 d4 : Word) : BitVec 20 := d4.extractLsb' 16 4 ++ d0.extractLsb' 0 16

/-- The granularity bit G, `D4[23]` (R31). -/
def descG (d4 : Word) : Bool := d4.getLsbD 23

/-- `EffLimit(D0, D4)`: the limit field, or shifted left by 12 with one-bits inserted if G is set (R32). -/
def descEffLimit (d0 d4 : Word) : Word :=
  if descG d4 then descLimit20 d0 d4 ++ 0xFFF#12 else (descLimit20 d0 d4).setWidth 32

/-- The present bit P, `D4[15]` (R36). -/
def descP (d4 : Word) : Bool := d4.getLsbD 15

/-- What the processor reads of D4: all of it when P is 1, "only bits 15..8 of D4" when P is 0 (R40, U3). The AVAILABLE
bits read as 0 here (DEDUCED, log 37). -/
def seenD4 (d4 : Word) : Word := if descP d4 then d4 else d4 &&& 0x0000FF00

/-- What the processor reads of D0: all of it when P is 1, nothing when P is 0 (R40, U3; DEDUCED, log 37). -/
def seenD0 (d0 d4 : Word) : Word := if descP d4 then d0 else 0

/-- Bit 12 of D4, S: set for applications code and data segments (R35). -/
def descS (d4 : Word) : Bool := d4.getLsbD 12

/-- The accessed bit A, `D4[8]` of a format 1 descriptor (R37). -/
def descA (d4 : Word) : Bool := d4.getLsbD 8

/-- `Attrs(D4) = D4[23:20] ++ D4[15:8]` (R41). -/
def descAttrs (d4 : Word) : BitVec 12 := d4.extractLsb' 20 4 ++ d4.extractLsb' 8 8

/-- The attributes a load commits: A as it stands in memory after the load (R70 step 7, C7). -/
def loadedAttrs (d4 : Word) : BitVec 12 := if descS d4 then descAttrs d4 ||| 1 else descAttrs d4

/-- The hidden part a load fills from a descriptor (R70 step 7). -/
def hiddenOf (d0 d4 : Word) : Hidden := ⟨descBase d0 d4, descEffLimit d0 d4, loadedAttrs d4⟩

end Sys2Proof.Machine
end

