-- ==== Sys2Proof/Machine/Memory.lean ====
section
/-! DEFINITION. Linear memory: reads and writes of bytes and of little-endian values (spec/20_memory.md R20, R46, R52,
R53; 00_scope.md section 6 `MemRead`, `MemWrite`). -/

namespace Sys2Proof.Machine

/-- What an address not listed reads as (DESIGN CHOICE: R53 gives no launch contents; log 8). -/
def Memory.unlisted : Byte := 0

/-- The byte at an address. -/
def Memory.read : Memory → Nat → Byte
  | [], _ => Memory.unlisted
  | (k, b) :: rest, a => if k = a then b else Memory.read rest a

/-- Put a byte at an address, keeping the canonical form: the byte an unlisted address reads is not listed. -/
def Memory.write : Memory → Nat → Byte → Memory
  | [], a, b => if b = Memory.unlisted then [] else [(a, b)]
  | (k, c) :: rest, a, b =>
    if a < k then (if b = Memory.unlisted then (k, c) :: rest else (a, b) :: (k, c) :: rest)
    else if a = k then (if b = Memory.unlisted then rest else (a, b) :: rest)
    else (k, c) :: Memory.write rest a b

/-- The canonical form from address `lo` on: addresses rise strictly from `lo`, are below 2^32, and no entry holds what an
unlisted address reads. -/
def Memory.wfFrom (lo : Nat) : Memory → Bool
  | [] => true
  | (k, b) :: rest => decide (lo ≤ k) && decide (k < 2 ^ 32) && b != Memory.unlisted && Memory.wfFrom (k + 1) rest

/-- The canonical form. -/
def Memory.wf (m : Memory) : Bool := Memory.wfFrom 0 m

/-- `MemRead(addr, n)`: byte `i` is at `(addr + i) mod 2^32` and holds bits `8*i+7..8*i` (R46, R54). -/
def memRead (m : Memory) (a : Word) : (n : Nat) → BitVec (8 * n)
  | 0 => 0
  | n + 1 => memRead m (a + 1) n ++ m.read a.toNat

/-- `MemWrite(addr, n, v)`, same conventions. -/
def memWrite (m : Memory) (a : Word) : (n : Nat) → BitVec (8 * n) → Memory
  | 0, _ => m
  | n + 1, v => memWrite (m.write a.toNat (v.setWidth 8)) (a + 1) n (v.extractLsb' 8 (8 * n))

end Sys2Proof.Machine
end

