-- ==== Sys2Proof/Machine/Ops.lean ====
section
/-! DEFINITION. The named operations over registers and memory: free values, raising an exception, ProtCheck,
`Translate` and `REF` (R43, R81), `SetAccessed` (R49), `LoadSeg` (R70), the selector test (R80), the stack (R72, R82). -/

namespace Sys2Proof.Machine

/-- Why an operation stops. -/
inductive Stop where
  | fault (f : Fault)
  | refused (r : Refusal)
  deriving DecidableEq, Repr

/-- An operation's result: a value, or a stop. -/
abbrev Result := Except Stop

/-- The outcome of a whole instruction. -/
def finish : Result State → Host.Outcome State Fault Refusal
  | .ok s => .next s
  | .error (.fault f) => .fault f
  | .error (.refused r) => .refused r

/-- TAKING AN EXCEPTION: the one place every exception of R90 goes through. "A raised exception is a terminal fault outcome
of the model's step" (D10): R98 describes no vector, no saved state, no handler and no return, and R96 leaves every register
and every byte of memory as it was. -/
def raise {α : Type} (f : Fault) : Result α := .error (.fault f)

/-- Stop without a meaning, by name. -/
def refuse {α : Type} (r : Refusal) : Result α := .error (.refused r)

/-! ## Free values (log 15) -/

/-- Draw the next free value. -/
def draw (s : State) : Word × State := (Config.freeWord s.free, { s with free := s.free + 1 })

/-! ## Registers -/

/-- `SREG[r]`. -/
def SegFile.get (f : SegFile) : SegName → SegReg
  | .cs => f.cs | .ss => f.ss | .ds => f.ds | .es => f.es | .fs => f.fs | .gs => f.gs

/-- `SREG[r] <- v`, both parts together (R6). -/
def SegFile.set (f : SegFile) (r : SegName) (v : SegReg) : SegFile :=
  match r with
  | .cs => { f with cs := v }
  | .ss => { f with ss := v }
  | .ds => { f with ds := v }
  | .es => { f with es := v }
  | .fs => { f with fs := v }
  | .gs => { f with gs := v }

/-- A general register. -/
def Gprs.get (f : Gprs) : Reg → Word
  | .eax => f.eax | .ecx => f.ecx | .edx => f.edx | .ebx => f.ebx
  | .esp => f.esp | .ebp => f.ebp | .esi => f.esi | .edi => f.edi

/-- Write a general register. -/
def Gprs.set (f : Gprs) (r : Reg) (v : Word) : Gprs :=
  match r with
  | .eax => { f with eax := v }
  | .ecx => { f with ecx := v }
  | .edx => { f with edx := v }
  | .ebx => { f with ebx := v }
  | .esp => { f with esp := v }
  | .ebp => { f with ebp := v }
  | .esi => { f with esi := v }
  | .edi => { f with edi := v }

/-- Read a segment register. -/
def State.segReg (s : State) (r : SegName) : SegReg := s.seg.get r

/-- Write a segment register. -/
def State.setSeg (s : State) (r : SegName) (v : SegReg) : State := { s with seg := s.seg.set r v }

/-- Read a general register. -/
def State.reg (s : State) (r : Reg) : Word := s.gpr.get r

/-- Write a general register. -/
def State.setReg (s : State) (r : Reg) (v : Word) : State := { s with gpr := s.gpr.set r v }

/-- Write memory. -/
def State.setMem (s : State) (m : Memory) : State := { s with mem := m }

/-- Write the instruction pointer. -/
def State.setEip (s : State) (v : Word) : State := { s with eip := v }

/-- The low 16 bits of a 32-bit register replaced, the high 16 kept. -/
def lowHalf (w : Word) (v : Half) : Word := w.extractLsb' 16 16 ++ v

/-! ## ProtCheck (R51, log 9) -/

/-- Whether a value fits a pattern. -/
def Pattern.fits {w : Nat} (p : Pattern w) (v : BitVec w) : Bool := v &&& p.mask == p.value &&& p.mask

/-- Whether a load query fits a rule. -/
def LoadRule.fits (r : LoadRule) (t : LoadTarget) (sel : Half) (d0 d4 : Word) : Bool :=
  r.targets.contains t && r.sel.fits sel && r.d0.fits d0 && r.d4.fits d4

/-- `ProtCheck.load(t, sel, D0, D4)`. Of a descriptor with P = 0 its rules see D4[15:8] alone (R40; log 37). -/
def ProtCheck.load (pc : ProtCheck) (t : LoadTarget) (sel : Half) (d0 d4 : Word) : Verdict :=
  match pc.loads.find? (fun r => r.fits t sel (seenD0 d0 d4) (seenD4 d4)) with
  | some r => r.verdict
  | none => .notNamed

/-- The query a load that stops records: what ProtCheck saw of it (logs 17, 37). -/
def loadQuery (t : LoadTarget) (sel : Half) (d0 d4 : Word) : ProtQuery := .load t sel (seenD0 d0 d4) (seenD4 d4)

/-- Where the last byte of a reference lies: `off + n - 1 <= hid.limit` is within (R51). -/
def Bound.fits (b : Bound) (limit off : Word) (n : Nat) : Bool :=
  match b with
  | .anywhere => true
  | .within => decide (off.toNat + n ≤ limit.toNat + 1)
  | .beyond => !decide (off.toNat + n ≤ limit.toNat + 1)

/-- Whether a reference query fits a rule. -/
def RefRule.fits (r : RefRule) (q : SegName) (v : SegReg) (off : Word) (n : Nat) (k : RefKind) : Bool :=
  r.segs.contains q && r.kinds.contains k && (r.sizes == none || r.sizes == some n) && r.sel.fits v.sel
    && r.base.fits v.hid.base && r.limit.fits v.hid.limit && r.attrs.fits v.hid.attrs && r.off.fits off
    && r.bound.fits v.hid.limit off n

/-- `ProtCheck.reference(SREG[q], off, n, kind)`. -/
def ProtCheck.reference (pc : ProtCheck) (q : SegName) (v : SegReg) (off : Word) (n : Nat) (k : RefKind) : Verdict :=
  match pc.references.find? (fun r => r.fits q v off n k) with
  | some r => r.verdict
  | none => .notNamed

/-- Act on ProtCheck's verdict: pass, raise `ProtectionViolation` (R95), or refuse what is not named (D7). -/
def judge (v : Verdict) (q : ProtQuery) : Result Unit :=
  match v with
  | .pass => .ok ()
  | .violation => raise (.protectionViolation q)
  | .notNamed => refuse (.protCheckNotNamed q)

/-! ## Translate and REF (R43, R54, R81) -/

/-- The linear address of an `n`-byte reference at offset `off` through `r`: the null test (R92), the refusal of offsets
past 0xFFFFFFFF (R54; log 29), `ProtCheck.reference`, then base plus offset mod 2^32 (R43, R44). -/
def translate (s : State) (r : SegName) (off : Word) (n : Nat) (k : RefKind) : Result Word :=
  if isNull (s.segReg r).sel then raise (.nullSegmentReference r)
  else if 2 ^ 32 < off.toNat + n then refuse (.offsetWraps r off n)
  else do
    judge (s.prot.reference r (s.segReg r) off n k) (.reference r off n k)
    .ok ((s.segReg r).hid.base + off)

/-- `REF r, off, n, read` (R81). -/
def refRead (s : State) (r : SegName) (off : Word) (n : Nat) : Result (BitVec (8 * n)) := do
  let lin ← translate s r off n .read
  .ok (memRead s.mem lin n)

/-- `REF r, off, n, write` (R81). -/
def refWrite (s : State) (r : SegName) (off : Word) (n : Nat) (v : BitVec (8 * n)) : Result State := do
  let lin ← translate s r off n .write
  .ok (s.setMem (memWrite s.mem lin n v))

/-! ## Loading a segment register (R70) -/

/-- The descriptor at an address: D0, then D4 (R48). -/
def descAt (m : Memory) (d : Word) : Desc := ⟨d, memRead m d 4, memRead m (d + 4) 4⟩

/-- R70 steps 2 and 3, for a selector that is not null. -/
def fetchDesc (s : State) (sel : Half) : Result Desc :=
  if inTable (tableOf s sel) sel then .ok (descAt s.mem (descAddr s sel))
  else raise (.descriptorTableLimit sel)

/-- `SetAccessed(d, D4)` (R49): one byte, only for format 1 and only when the bit was 0. -/
def setAccessed (m : Memory) (d : Desc) : Memory :=
  if descS d.d4 && !descA d.d4 then m.write (d.addr + 5).toNat (d.d4.extractLsb' 8 8 ||| 1) else m

/-- R70 steps 4 and 5: the protection checks, then the present bit (R97). -/
def passChecks (s : State) (t : LoadTarget) (sel : Half) (d : Desc) : Result Unit := do
  judge (s.prot.load t sel d.d0 d.d4) (loadQuery t sel d.d0 d.d4)
  if descP d.d4 then .ok () else raise (.segmentNotPresent sel)

/-- R70 steps 6 and 7: the accessed bit in memory, then both parts of the register. -/
def commitSeg (s : State) (r : SegName) (sel : Half) (d : Desc) : State :=
  (s.setMem (setAccessed s.mem d)).setSeg r ⟨sel, hiddenOf d.d0 d.d4⟩

/-- A null selector put into DS, ES, FS or GS: all 16 bits of it, and a hidden part that is three free values
("a model should make it a draw", R70; D13, U6; log 16). -/
def loadNull (s : State) (r : SegName) (sel : Half) : State :=
  let (base, s) := draw s
  let (limit, s) := draw s
  let (attrs, s) := draw s
  s.setSeg r ⟨sel, ⟨base, limit, attrs.setWidth 12⟩⟩

/-- `LoadSeg(r, sel)` (R70). -/
def loadSeg (s : State) (r : SegName) (sel : Half) : Result State :=
  if isNull sel then
    if r = .cs ∨ r = .ss then raise (.nullSelectorLoad r) else .ok (loadNull s r sel)
  else do
    let d ← fetchDesc s sel
    passChecks s (.seg r) sel d
    .ok (commitSeg s r sel d)

/-- The load of CS by a far transfer: `LoadSeg(CS, sel)`, refused when the descriptor it names has S = 0 (R77, R78, U18;
log 23). -/
def loadCsFar (s : State) (sel : Half) : Result State :=
  if isNull sel then loadSeg s .cs sel
  else do
    let d ← fetchDesc s sel
    if descS d.d4 then loadSeg s .cs sel else refuse (.farTransferToSystem sel)

/-! ## Loading LDTR (R68, D16; log 12) -/

/-- `LLDT(base, limit)` (R68). -/
def setLdtr (s : State) (base : Word) (limit : DtrLimit) : State := { s with ldtr := ⟨base, limit⟩ }

/-- `LGDT(base, limit)` (R66). -/
def setGdtr (s : State) (base : Word) (limit : DtrLimit) : State := { s with gdtr := ⟨base, limit⟩ }

/-- A selector with TI forced to 0 (R68 "`DescAddr` with TI forced to 0"). -/
def tiCleared (sel : Half) : Half := sel &&& 0xFFFB

/-- An effective limit held in `DTR_LIMIT_BITS` bits: the largest value where it does not fit, since no offset into a
table passes it (R22; log 11). -/
def dtrLimitOf (l : Word) : DtrLimit := if l.toNat < 65536 then l.setWidth 16 else 0xFFFF

/-- LLDT of a null selector "marks LDTR as holding no table" (R68): a limit below 7 (R94, D17), the limit and the base
otherwise free values (log 13). -/
def ldtrNone (s : State) : State :=
  let (base, s) := draw s
  let (limit, s) := draw s
  setLdtr s base (BitVec.ofNat 16 (limit.toNat % 7))

/-- LLDT of a selector: LDTR filled from the descriptor it names in the GDT, "much as `LoadSeg` fills a segment register"
(R68), and the selector kept for SLDT (D16). -/
def loadLdtr (s : State) (sel : Half) : Result State :=
  if isNull (tiCleared sel) then .ok { ldtrNone s with ldtrSel := sel }
  else if inTable s.gdtr sel then do
    let d := descAt s.mem (entryAddr s.gdtr sel)
    passChecks s .ldtr sel d
    .ok { setLdtr s (descBase d.d0 d.d4) (dtrLimitOf (descEffLimit d.d0 d.d4)) with ldtrSel := sel }
  else raise (.descriptorTableLimit sel)

/-! ## The selector test (R80) -/

/-- `SELTEST sel`: the accessed bit of the descriptor, for a non-null selector inside its table naming a present format 1
descriptor. Every case a `require` excludes is refused (D19; log 20). -/
def selTest (s : State) (sel : Half) : Result State :=
  if isNull sel then refuse (.selectorTest .nullSelector sel)
  else if !inTable (tableOf s sel) sel then refuse (.selectorTest .beyondLimit sel)
  else
    let d := descAt s.mem (descAddr s sel)
    if !descP d.d4 then refuse (.selectorTest .notPresent sel)
    else if !descS d.d4 then refuse (.selectorTest .systemFormat sel)
    else .ok (s.setMem (setAccessed s.mem d))

/-! ## The stack, referenced through SS (R72, R82; log 21) -/

/-- Bytes of a stack item: 2 under a 16-bit operand size, else 4. -/
def itemSize (op16 : Bool) : Nat := if op16 then 2 else 4

/-- Push a stack item: the reference through SS at ESP less the item's size, then ESP. -/
def push (s : State) (op16 : Bool) (v : BitVec (8 * itemSize op16)) : Result State := do
  let off := s.reg .esp - BitVec.ofNat 32 (itemSize op16)
  let t ← refWrite s .ss off (itemSize op16) v
  .ok (t.setReg .esp off)

/-- Push an offset. -/
def pushOff (s : State) (op16 : Bool) (v : Word) : Result State :=
  push s op16 (v.setWidth _)

/-- Push a selector. The upper half of a 32-bit item is a free value: no rule gives it. -/
def pushSel (s : State) (op16 : Bool) (sel : Half) : Result State :=
  if op16 then push s op16 (sel.setWidth _)
  else
    let (u, s) := draw s
    push s op16 ((lowHalf u sel).setWidth _)

/-- The selector on top of the stack: "the low 16 bits of the popped 16-bit or 32-bit item" (R72). -/
def topSel (s : State) (op16 : Bool) : Result Half := do
  let v ← refRead s .ss (s.reg .esp) (itemSize op16)
  .ok (v.setWidth 16)

/-- `POP r` (R72): `LoadSeg` of the selector on top of the stack, then ESP moves past the item. -/
def popSeg (s : State) (op16 : Bool) (r : SegName) : Result State := do
  let sel ← topSel s op16
  let t ← loadSeg s r sel
  .ok (t.setReg .esp (s.reg .esp + BitVec.ofNat 32 (itemSize op16)))

end Sys2Proof.Machine
end

