-- ==== Sys2Proof/Machine/Operands.lean ====
section
/-! DEFINITION. Resolving operands: the spec takes them as already resolved (R60, R65, R71); their forms are those of
opcode_table.json, the offset and default segment of a memory operand the family's (PRESUMED, logs 3 and 27). -/

namespace Sys2Proof.Machine

/-- A 32-bit-addressing displacement. -/
def Disp.value : Disp → Word
  | .none => 0
  | .d8 v => v.signExtend 32
  | .d32 v => v

/-- A 16-bit-addressing displacement. -/
def Disp16.value : Disp16 → Half
  | .none => 0
  | .d8 v => v.signExtend 16
  | .d16 v => v

/-- The low half of a general register. -/
def State.reg16 (s : State) (r : Reg) : Half := (s.reg r).setWidth 16

/-- The register sum of a 16-bit base form. -/
def Base16.value (s : State) : Base16 → Half
  | .bxSi => s.reg16 .ebx + s.reg16 .esi
  | .bxDi => s.reg16 .ebx + s.reg16 .edi
  | .bpSi => s.reg16 .ebp + s.reg16 .esi
  | .bpDi => s.reg16 .ebp + s.reg16 .edi
  | .si => s.reg16 .esi
  | .di => s.reg16 .edi
  | .bp => s.reg16 .ebp
  | .bx => s.reg16 .ebx

/-- A scaled index; the code of ESP is no index. -/
def scaledIndex (s : State) (x : Reg) (sc : BitVec 2) : Word :=
  if x = .esp then 0 else s.reg x <<< sc.toNat

/-- The offset a memory operand names: 32-bit sums mod 2^32, 16-bit sums mod 2^16 extended with zeros. -/
def MemOp.offset (s : State) : MemOp → Word
  | .base b d => s.reg b + Disp.value d
  | .abs a => a
  | .sib b x sc d => s.reg b + scaledIndex s x sc + Disp.value d
  | .sibAbs x sc a => scaledIndex s x sc + a
  | .base16 f d => (Base16.value s f + Disp16.value d).setWidth 32
  | .abs16 a => a.setWidth 32

/-- The segment a memory operand uses when none is named: SS for a base of EBP or ESP, else DS. -/
def MemOp.defaultSeg : MemOp → SegName
  | .base b _ => if b = .ebp ∨ b = .esp then .ss else .ds
  | .abs _ => .ds
  | .sib b _ _ _ => if b = .ebp ∨ b = .esp then .ss else .ds
  | .sibAbs _ _ _ => .ds
  | .base16 f _ => if f = .bpSi ∨ f = .bpDi ∨ f = .bp then .ss else .ds
  | .abs16 _ => .ds

/-- The segment register of a memory operand: the override, else the default. -/
def MemOp.seg (p : Prefixes) (m : MemOp) : SegName := p.seg.getD (MemOp.defaultSeg m)

/-- Read `n` bytes of a memory operand (R81). -/
def readMem (s : State) (p : Prefixes) (m : MemOp) (n : Nat) : Result (BitVec (8 * n)) :=
  refRead s (MemOp.seg p m) (MemOp.offset s m) n

/-- Write `n` bytes of a memory operand (R81). -/
def writeMem (s : State) (p : Prefixes) (m : MemOp) (n : Nat) (v : BitVec (8 * n)) : Result State :=
  refWrite s (MemOp.seg p m) (MemOp.offset s m) n v

/-- The 16-bit source operand r/m16. -/
def readRM16 (s : State) (p : Prefixes) : RM → Result Half
  | .reg r => .ok (s.reg16 r)
  | .mem m => readMem s p m 2

/-- The 16-bit destination operand r/m16: a register keeps its upper half (log 26). -/
def writeRM16 (s : State) (p : Prefixes) (rm : RM) (v : Half) : Result State :=
  match rm with
  | .reg r => .ok (s.setReg r (lowHalf (s.reg r) v))
  | .mem m => writeMem s p m 2 v

/-- Write a general register at the operand size: the low half only under a 16-bit one (log 25). -/
def State.setRegSized (s : State) (op16 : Bool) (r : Reg) (v : Word) : State :=
  s.setReg r (if op16 then lowHalf (s.reg r) (v.setWidth 16) else v)

/-- A far pointer in memory: "offset at the lower address (4 bytes, or 2 with a 16-bit operand size), then the 16-bit
selector" (opcode_table.json). -/
def readFar (s : State) (p : Prefixes) (m : MemOp) : Result (Word × Half) :=
  if p.op16 then do
    let v ← readMem s p m 4
    .ok ((v.extractLsb' 0 16).setWidth 32, v.extractLsb' 16 16)
  else do
    let v ← readMem s p m 6
    .ok (v.extractLsb' 0 32, v.extractLsb' 32 16)

/-- A pseudo-descriptor in memory: "16-bit limit at the lower address, then 32-bit base" (opcode_table.json; log 32). -/
def readTable (s : State) (p : Prefixes) (m : MemOp) : Result TableReg := do
  let v ← readMem s p m 6
  .ok ⟨v.extractLsb' 16 32, v.extractLsb' 0 16⟩

/-- Write a pseudo-descriptor to memory. -/
def writeTable (s : State) (p : Prefixes) (m : MemOp) (t : TableReg) : Result State :=
  writeMem s p m 6 (t.base ++ t.limit)

end Sys2Proof.Machine
end

