-- ==== Sys2Proof/Machine/DescTable.lean ====
section
/-! DEFINITION. LGDT, SGDT, LLDT, SLDT: spec/40_descriptor_table_registers.md R65 to R69. None writes a flag. No privilege
is checked: the spec gives none (R65, N2; log 30). -/

namespace Sys2Proof.Machine

/-- LGDT (R66): GDTR receives the pair read from memory. -/
def execLgdt (p : Prefixes) (m : MemOp) (s : State) : Host.Outcome State Fault Refusal :=
  finish do
    let t ← readTable s p m
    .ok (setGdtr s t.base t.limit)

/-- SGDT (R67): the memory operand receives the pair of GDTR. -/
def execSgdt (p : Prefixes) (m : MemOp) (s : State) : Host.Outcome State Fault Refusal :=
  finish (writeTable s p m s.gdtr)

/-- LLDT (R68, D16): LDTR receives the pair resolved from the selector operand. -/
def execLldt (p : Prefixes) (rm : RM) (s : State) : Host.Outcome State Fault Refusal :=
  finish do
    let sel ← readRM16 s p rm
    loadLdtr s sel

/-- SLDT (R69, D16): the pair of LDTR goes to the abstract destination, the selector last given to LLDT to r/m16 (log 14). -/
def execSldt (p : Prefixes) (rm : RM) (s : State) : Host.Outcome State Fault Refusal :=
  finish (writeRM16 { s with sldtDst := s.ldtr } p rm s.ldtrSel)

end Sys2Proof.Machine
end

