-- ==== Sys2Proof/Machine/FarTransfer.lean ====
section
/-! DEFINITION. The implied load instructions, far CALL and far JMP: spec/41_segment_register_loads.md R77, R78. They load CS
first; what the rules put "outside the source" (the saved return address, where execution continues) is the family's
(PRESUMED, log 22). None writes a flag. -/

namespace Sys2Proof.Machine

/-- `JMPF (sel, off)` (R78): `LoadSeg(CS, sel)`, then execution continues at `off` of the new CS. -/
def jmpFar (s : State) (sel : Half) (off : Word) : Result State := do
  let t ← loadCsFar s sel
  .ok (t.setEip off)

/-- `CALLF (sel, off)` (R77): `LoadSeg(CS, sel)`, the old CS selector and the return offset pushed, then execution
continues at `off` of the new CS. -/
def callFar (s : State) (op16 : Bool) (sel : Half) (off : Word) : Result State := do
  let t ← loadCsFar s sel
  let t ← pushSel t op16 (s.segReg .cs).sel
  let t ← pushOff t op16 s.eip
  .ok (t.setEip off)

/-- CALL ptr16:32 (R77). -/
def execCallPtr (p : Prefixes) (off : Word) (sel : Half) (s : State) : Host.Outcome State Fault Refusal :=
  finish (callFar s p.op16 sel off)

/-- CALL m16:32 (R77). -/
def execCallMem (p : Prefixes) (m : MemOp) (s : State) : Host.Outcome State Fault Refusal :=
  finish do
    let (off, sel) ← readFar s p m
    callFar s p.op16 sel off

/-- JMP ptr16:32 (R78). -/
def execJmpPtr (_p : Prefixes) (off : Word) (sel : Half) (s : State) : Host.Outcome State Fault Refusal :=
  finish (jmpFar s sel off)

/-- JMP m16:32 (R78). -/
def execJmpMem (p : Prefixes) (m : MemOp) (s : State) : Host.Outcome State Fault Refusal :=
  finish do
    let (off, sel) ← readFar s p m
    jmpFar s sel off

end Sys2Proof.Machine
end

