-- ==== Sys2Proof/Machine/SegLoad.lean ====
section
/-! DEFINITION. The direct load instructions: spec/41_segment_register_loads.md R71 to R76. None writes a flag. -/

namespace Sys2Proof.Machine

/-- MOV Sreg, r/m16 (R71); CS is refused as destination (U17). -/
def execMovToSreg (p : Prefixes) (r : SegName) (rm : RM) (s : State) : Host.Outcome State Fault Refusal :=
  finish do
    if r = .cs then refuse .movToCs
    else do
      let sel ← readRM16 s p rm
      loadSeg s r sel

/-- POP ES (R72). -/
def execPopEs (p : Prefixes) (s : State) : Host.Outcome State Fault Refusal := finish (popSeg s p.op16 .es)

/-- POP SS (R72). -/
def execPopSs (p : Prefixes) (s : State) : Host.Outcome State Fault Refusal := finish (popSeg s p.op16 .ss)

/-- POP DS (R72). -/
def execPopDs (p : Prefixes) (s : State) : Host.Outcome State Fault Refusal := finish (popSeg s p.op16 .ds)

/-- POP FS (R72). -/
def execPopFs (p : Prefixes) (s : State) : Host.Outcome State Fault Refusal := finish (popSeg s p.op16 .fs)

/-- POP GS (R72). -/
def execPopGs (p : Prefixes) (s : State) : Host.Outcome State Fault Refusal := finish (popSeg s p.op16 .gs)

/-- `LDS (sel, off)` and its fellows (R73): `LoadSeg(r, sel)`, then the offset to a general register. -/
def loadPointer (s : State) (p : Prefixes) (r : SegName) (g : Reg) (m : MemOp) : Result State := do
  let (off, sel) ← readFar s p m
  let t ← loadSeg s r sel
  .ok (t.setRegSized p.op16 g off)

/-- LDS (R73). -/
def execLds (p : Prefixes) (g : Reg) (m : MemOp) (s : State) : Host.Outcome State Fault Refusal :=
  finish (loadPointer s p .ds g m)

/-- LSS (R74). -/
def execLss (p : Prefixes) (g : Reg) (m : MemOp) (s : State) : Host.Outcome State Fault Refusal :=
  finish (loadPointer s p .ss g m)

/-- LGS (R75). -/
def execLgs (p : Prefixes) (g : Reg) (m : MemOp) (s : State) : Host.Outcome State Fault Refusal :=
  finish (loadPointer s p .gs g m)

/-- LFS (R76). -/
def execLfs (p : Prefixes) (g : Reg) (m : MemOp) (s : State) : Host.Outcome State Fault Refusal :=
  finish (loadPointer s p .fs g m)

end Sys2Proof.Machine
end

