-- ==== Sys2Proof/Machine/SegRead.lean ====
section
/-! DEFINITION. Reading the visible part, `RDSEG s`: spec/42_selector_test_and_memory_reference.md R82. The stack write of
PUSH is a reference through SS (R81). None writes a flag. -/

namespace Sys2Proof.Machine

/-- MOV r/m16, Sreg (R82). -/
def execMovFromSreg (p : Prefixes) (r : SegName) (rm : RM) (s : State) : Host.Outcome State Fault Refusal :=
  finish (writeRM16 s p rm (s.segReg r).sel)

/-- PUSH ES (R82). -/
def execPushEs (p : Prefixes) (s : State) : Host.Outcome State Fault Refusal :=
  finish (pushSel s p.op16 (s.segReg .es).sel)

/-- PUSH CS (R82). -/
def execPushCs (p : Prefixes) (s : State) : Host.Outcome State Fault Refusal :=
  finish (pushSel s p.op16 (s.segReg .cs).sel)

/-- PUSH SS (R82). -/
def execPushSs (p : Prefixes) (s : State) : Host.Outcome State Fault Refusal :=
  finish (pushSel s p.op16 (s.segReg .ss).sel)

/-- PUSH DS (R82). -/
def execPushDs (p : Prefixes) (s : State) : Host.Outcome State Fault Refusal :=
  finish (pushSel s p.op16 (s.segReg .ds).sel)

/-- PUSH FS (R82). -/
def execPushFs (p : Prefixes) (s : State) : Host.Outcome State Fault Refusal :=
  finish (pushSel s p.op16 (s.segReg .fs).sel)

/-- PUSH GS (R82). -/
def execPushGs (p : Prefixes) (s : State) : Host.Outcome State Fault Refusal :=
  finish (pushSel s p.op16 (s.segReg .gs).sel)

end Sys2Proof.Machine
end

