-- ==== Sys2Proof/Machine/Flags.lean ====
section
/-! DEFINITION. Flags. Every instruction rule of the spec says "Flags written: none described", but for the selector
tests, whose flag result is outside the source (R80; logs 20, 34): ZF becomes a free value. -/

namespace Sys2Proof.Machine

/-- EFLAGS with ZF, bit 6, replaced and the other 31 bits kept (PRESUMED position, log 34). -/
def withZf (f : Word) (z : Bool) : Word := (f &&& ~~~(0x40 : Word)) ||| (if z then 0x40 else 0)

/-- ZF becomes a free value. -/
def freeZf (s : State) : State :=
  let (z, s) := draw s
  { s with eflags := withZf s.eflags (z.getLsbD 0) }

end Sys2Proof.Machine
end

