-- ==== Sys2Proof/Machine/SelTest.lean ====
section
/-! DEFINITION. The selector tests, LAR, LSL, VERR, VERW: spec/42_selector_test_and_memory_reference.md R80. The accessed bit
is set; "the instruction's result (a flag, a register) is outside the source", so it is free values (log 20). -/

namespace Sys2Proof.Machine

/-- The selector test of an operand, with ZF a free value. -/
def testOperand (s : State) (p : Prefixes) (rm : RM) : Result State := do
  let sel ← readRM16 s p rm
  let t ← selTest s sel
  .ok (freeZf t)

/-- A free value into the destination register. -/
def freeReg (s : State) (op16 : Bool) (g : Reg) : State :=
  let (v, s) := draw s
  s.setRegSized op16 g v

/-- LAR r, r/m16 (R80). -/
def execLar (p : Prefixes) (g : Reg) (rm : RM) (s : State) : Host.Outcome State Fault Refusal :=
  finish do
    let t ← testOperand s p rm
    .ok (freeReg t p.op16 g)

/-- LSL r, r/m16 (R80). -/
def execLsl (p : Prefixes) (g : Reg) (rm : RM) (s : State) : Host.Outcome State Fault Refusal :=
  finish do
    let t ← testOperand s p rm
    .ok (freeReg t p.op16 g)

/-- VERR r/m16 (R80). -/
def execVerr (p : Prefixes) (rm : RM) (s : State) : Host.Outcome State Fault Refusal :=
  finish (testOperand s p rm)

/-- VERW r/m16 (R80). -/
def execVerw (p : Prefixes) (rm : RM) (s : State) : Host.Outcome State Fault Refusal :=
  finish (testOperand s p rm)

end Sys2Proof.Machine
end

