-- ==== Sys2Proof/Machine/Dispatch.lean ====
section
/-! DEFINITION. One arm per instruction. -/

namespace Sys2Proof.Machine

def exec (i : Instr) (s : State) : Host.Outcome State Fault Refusal :=
  match i with
  | .lgdt p m => Sys2Proof.Machine.execLgdt p m s
  | .sgdt p m => Sys2Proof.Machine.execSgdt p m s
  | .lldt p rm => Sys2Proof.Machine.execLldt p rm s
  | .sldt p rm => Sys2Proof.Machine.execSldt p rm s
  | .movToSreg p r rm => Sys2Proof.Machine.execMovToSreg p r rm s
  | .popEs p => Sys2Proof.Machine.execPopEs p s
  | .popSs p => Sys2Proof.Machine.execPopSs p s
  | .popDs p => Sys2Proof.Machine.execPopDs p s
  | .popFs p => Sys2Proof.Machine.execPopFs p s
  | .popGs p => Sys2Proof.Machine.execPopGs p s
  | .lds p g m => Sys2Proof.Machine.execLds p g m s
  | .lss p g m => Sys2Proof.Machine.execLss p g m s
  | .lgs p g m => Sys2Proof.Machine.execLgs p g m s
  | .lfs p g m => Sys2Proof.Machine.execLfs p g m s
  | .callPtr p off sel => Sys2Proof.Machine.execCallPtr p off sel s
  | .callMem p m => Sys2Proof.Machine.execCallMem p m s
  | .jmpPtr p off sel => Sys2Proof.Machine.execJmpPtr p off sel s
  | .jmpMem p m => Sys2Proof.Machine.execJmpMem p m s
  | .lar p g rm => Sys2Proof.Machine.execLar p g rm s
  | .lsl p g rm => Sys2Proof.Machine.execLsl p g rm s
  | .verr p rm => Sys2Proof.Machine.execVerr p rm s
  | .verw p rm => Sys2Proof.Machine.execVerw p rm s
  | .movFromSreg p r rm => Sys2Proof.Machine.execMovFromSreg p r rm s
  | .pushEs p => Sys2Proof.Machine.execPushEs p s
  | .pushCs p => Sys2Proof.Machine.execPushCs p s
  | .pushSs p => Sys2Proof.Machine.execPushSs p s
  | .pushDs p => Sys2Proof.Machine.execPushDs p s
  | .pushFs p => Sys2Proof.Machine.execPushFs p s
  | .pushGs p => Sys2Proof.Machine.execPushGs p s

end Sys2Proof.Machine
end

