-- ==== Sys2Proof/Machine/Fetch.lean ====
section
/-! DEFINITION. Fetching an instruction: "instruction fetch is a memory reference through CS like any other"
(spec/20_memory.md R20; 41 R77; log 28). -/

namespace Sys2Proof.Machine

/-- `n` bytes of memory from a linear address on, mod 2^32. -/
def readBytes (m : Memory) (a : Word) : Nat → List Byte
  | 0 => []
  | n + 1 => m.read a.toNat :: readBytes m (a + 1) n

/-- Put bytes into memory from a linear address on, mod 2^32. -/
def writeBytes (m : Memory) (a : Word) : List Byte → Memory
  | [] => m
  | b :: bs => writeBytes (m.write a.toNat b) (a + 1) bs

/-- Where the next instruction's first byte is: CS's base plus EIP (R43). -/
def fetchAddr (s : State) : Word := (s.segReg .cs).hid.base + s.eip

/-- The bytes the next instruction lies in, as memory holds them now. DESIGN CHOICE (log 39): R52 leaves open whether a
fetch sees the stores of earlier instructions; here it sees all of them, and no byte is fetched ahead. Unsafe. -/
def fetchWindow (s : State) : List Byte := readBytes s.mem (fetchAddr s) Config.maxInstrBytes

/-- The next instruction and its length in bytes: the null test of CS (R92), the decoding, then the execute reference of
exactly the instruction's bytes through CS (R81). -/
def fetch (s : State) : Result (Instr × Nat) :=
  if isNull (s.segReg .cs).sel then raise (.nullSegmentReference .cs)
  else match decode (fetchWindow s) with
    | .error e => refuse (.undecodable e)
    | .ok (i, rest) => do
      let n := Config.maxInstrBytes - rest.length
      let _ ← translate s .cs s.eip n .execute
      .ok (i, n)

/-- EIP moved past an instruction of `n` bytes, mod 2^32. -/
def advance (s : State) (n : Nat) : State := s.setEip (s.eip + BitVec.ofNat 32 n)

/-- One step: fetch, move EIP past the instruction, execute. -/
def runNext (s : State) : Host.Outcome State Fault Refusal :=
  match fetch s with
  | .error e => finish (.error e)
  | .ok (i, n) => exec i (advance s n)

/-- The state with an instruction's bytes where the next fetch reads (log 36). -/
def placeBytes (s : State) (bs : List Byte) : State := s.setMem (writeBytes s.mem (fetchAddr s) bs)

end Sys2Proof.Machine
end

