-- ==== Sys2Proof/Machine/Step.lean ====
section
/-! DEFINITION. One step of the machine (spec/10_state.md R16: one processor, one instruction after another). -/

namespace Sys2Proof.Machine

/-- One step (R16, R52): fetch the next instruction through CS and execute it. -/
def step (s : State) : Host.Outcome State Fault Refusal := runNext s

/-- The state with a table word's instruction stored where the next fetch reads: all of a longest instruction's bytes. -/
def State.withFetchWord (s : State) (nbits w : Nat) : State := placeBytes s (tableWindow nbits w)

end Sys2Proof.Machine
end

