-- ==== Sys2Proof/Safety.lean ====
section
/-! DEFINITION. What claims are stated in: the conditions under which a reference, a load or a selector test goes through,
the effects they have, what an instruction loads, and the invariant of the machine. -/

namespace Sys2Proof.Machine

/-! ## Conditions -/

/-- The linear address of an offset through a segment register (R43, R44). -/
def linear (s : State) (r : SegName) (off : Word) : Word := (s.segReg r).hid.base + off

/-- The conditions for an `n`-byte reference: no null selector (R92), no offset past 0xFFFFFFFF (R54), and ProtCheck
passes it (R51). -/
def refOk (s : State) (r : SegName) (off : Word) (n : Nat) (k : RefKind) : Bool :=
  !isNull (s.segReg r).sel && decide (off.toNat + n ≤ 2 ^ 32)
    && s.prot.reference r (s.segReg r) off n k == .pass

/-- The conditions for a memory operand of `n` bytes. -/
def memOk (s : State) (p : Prefixes) (m : MemOp) (n : Nat) (k : RefKind) : Bool :=
  refOk s (MemOp.seg p m) (MemOp.offset s m) n k

/-- The linear address of a memory operand. -/
def memAddr (s : State) (p : Prefixes) (m : MemOp) : Word := linear s (MemOp.seg p m) (MemOp.offset s m)

/-- The conditions for reading an r/m16 operand. -/
def rmOk (s : State) (p : Prefixes) : RM → Bool
  | .reg _ => true
  | .mem m => memOk s p m 2 .read

/-- The value of an r/m16 operand. -/
def rmVal (s : State) (p : Prefixes) : RM → Half
  | .reg r => s.reg16 r
  | .mem m => memRead s.mem (memAddr s p m) 2

/-- Bytes of a far pointer in memory: offset, then selector. -/
def farSize (op16 : Bool) : Nat := if op16 then 4 else 6

/-- The offset of a far pointer in memory. -/
def farOff (s : State) (p : Prefixes) (m : MemOp) : Word :=
  if p.op16 then (memRead s.mem (memAddr s p m) 2).setWidth 32 else memRead s.mem (memAddr s p m) 4

/-- The selector of a far pointer in memory, after the offset. -/
def farSel (s : State) (p : Prefixes) (m : MemOp) : Half :=
  if p.op16 then memRead s.mem (memAddr s p m + 2) 2 else memRead s.mem (memAddr s p m + 4) 2

/-- The descriptor a selector names (R24, R25, R48). -/
def namedDesc (s : State) (sel : Half) : Desc := descAt s.mem (descAddr s sel)

/-- A selector is not null and its descriptor lies within its table (R11, R50). -/
def names (s : State) (sel : Half) : Bool := !isNull sel && inTable (tableOf s sel) sel

/-- The conditions for loading `r` from a descriptor: R70 steps 1 to 5 pass. -/
def loadOk (s : State) (r : SegName) (sel : Half) : Bool :=
  names s sel && s.prot.load (.seg r) sel (namedDesc s sel).d0 (namedDesc s sel).d4 == .pass
    && descP (namedDesc s sel).d4

/-- The conditions for LLDT of a selector that is not null: its GDT descriptor lies within the table, ProtCheck passes it
and it is present (R68). -/
def lldtOk (s : State) (sel : Half) : Bool :=
  !isNull (tiCleared sel) && inTable s.gdtr sel
    && s.prot.load .ldtr sel (descAt s.mem (entryAddr s.gdtr sel)).d0 (descAt s.mem (entryAddr s.gdtr sel)).d4 == .pass
    && descP (descAt s.mem (entryAddr s.gdtr sel)).d4

/-- R80's `require` lines. -/
def selTestOk (s : State) (sel : Half) : Bool :=
  names s sel && descP (namedDesc s sel).d4 && descS (namedDesc s sel).d4

/-! ## Effects -/

/-- Every byte outside the `n` at linear address `a` reads as before. -/
def SameOutside (m m' : Memory) (a : Word) (n : Nat) : Prop :=
  ∀ x : Nat, (∀ i, i < n → x ≠ (a + BitVec.ofNat 32 i).toNat) → m'.read x = m.read x

/-- Every byte reads as before but for the accessed bit: where the descriptor is of format 1 and its A bit was 0, byte
`d + 5` has bit 0 set (R49). -/
def AccessedSet (m m' : Memory) (d : Desc) : Prop :=
  ∀ x : Nat, m'.read x =
    if descS d.d4 ∧ ¬ descA d.d4 ∧ x = (d.addr + 5).toNat then m.read x ||| 1 else m.read x

/-- The segment register `r` holds `sel` and the hidden part of its descriptor, and the other five are unchanged
(R70 step 7). -/
def SegFilled (s t : State) (r : SegName) (sel : Half) : Prop :=
  t.segReg r = ⟨sel, hiddenOf (namedDesc s sel).d0 (namedDesc s sel).d4⟩ ∧ ∀ q, q ≠ r → t.segReg q = s.segReg q

/-- Nothing but general registers, EIP, EFLAGS, segment registers, memory and the free counter differs. -/
def SameTables (s t : State) : Prop :=
  t.gdtr = s.gdtr ∧ t.ldtr = s.ldtr ∧ t.ldtrSel = s.ldtrSel ∧ t.sldtDst = s.sldtDst ∧ t.prot = s.prot

/-- The whole effect of loading `r` from a descriptor (R70 steps 6 and 7), general registers and EIP aside. -/
def SegLoaded (s t : State) (r : SegName) (sel : Half) : Prop :=
  SegFilled s t r sel ∧ AccessedSet s.mem t.mem (namedDesc s sel) ∧ SameTables s t ∧ t.eflags = s.eflags ∧ t.free = s.free

/-- The whole effect of loading `r` with a null selector (R70 step 1), general registers and EIP aside: the hidden part
is not constrained. -/
def NullLoaded (s t : State) (r : SegName) (sel : Half) : Prop :=
  (t.segReg r).sel = sel ∧ (∀ q, q ≠ r → t.segReg q = s.segReg q) ∧ t.mem = s.mem ∧ SameTables s t ∧ t.eflags = s.eflags

/-- What a far CALL to `(sel, off)` leaves (R77; the stack is log 22's, the model's): CS loaded, EIP at `off`, ESP two items
lower, the old CS selector and under it the return offset on the stack, and every byte outside the two items as before but
for the accessed bit's. -/
def FarCalled (s t : State) (op16 : Bool) (sel : Half) (off : Word) : Prop :=
  let n := itemSize op16
  let o1 := s.reg .esp - BitVec.ofNat 32 n
  let o2 := o1 - BitVec.ofNat 32 n
  SegFilled s t .cs sel ∧ SameTables s t ∧ t.eflags = s.eflags ∧ t.eip = off ∧ t.gpr = s.gpr.set .esp o2 ∧
  memRead t.mem (linear s .ss o1) 2 = (s.segReg .cs).sel ∧
  memRead t.mem (linear s .ss o2) n = s.eip.setWidth (8 * n) ∧
  ∀ x : Nat, (∀ j, j < n → x ≠ (linear s .ss o1 + BitVec.ofNat 32 j).toNat) →
    (∀ j, j < n → x ≠ (linear s .ss o2 + BitVec.ofNat 32 j).toNat) →
    t.mem.read x =
      if descS (namedDesc s sel).d4 ∧ ¬ descA (namedDesc s sel).d4 ∧ x = ((namedDesc s sel).addr + 5).toNat
      then s.mem.read x ||| 1 else s.mem.read x

/-- The conditions for a far CALL: the load of CS, and the two stack items. -/
def farCallOk (s : State) (op16 : Bool) (sel : Half) : Bool :=
  loadOk s .cs sel && descS (namedDesc s sel).d4
    && refOk s .ss (s.reg .esp - BitVec.ofNat 32 (itemSize op16)) (itemSize op16) .write
    && refOk s .ss (s.reg .esp - BitVec.ofNat 32 (itemSize op16) - BitVec.ofNat 32 (itemSize op16)) (itemSize op16) .write

/-! ## What an instruction loads -/

/-- The segment register an instruction loads (R71 to R78). -/
def loadTarget : Instr → Option SegName
  | .movToSreg _ r _ => some r
  | .popEs _ => some .es
  | .popSs _ => some .ss
  | .popDs _ => some .ds
  | .popFs _ => some .fs
  | .popGs _ => some .gs
  | .lds _ _ _ => some .ds
  | .lss _ _ _ => some .ss
  | .lgs _ _ _ => some .gs
  | .lfs _ _ _ => some .fs
  | .callPtr _ _ _ => some .cs
  | .callMem _ _ => some .cs
  | .jmpPtr _ _ _ => some .cs
  | .jmpMem _ _ => some .cs
  | .lgdt _ _ => none
  | .sgdt _ _ => none
  | .lldt _ _ => none
  | .sldt _ _ => none
  | .lar _ _ _ => none
  | .lsl _ _ _ => none
  | .verr _ _ => none
  | .verw _ _ => none
  | .movFromSreg _ _ _ => none
  | .pushEs _ => none
  | .pushCs _ => none
  | .pushSs _ => none
  | .pushDs _ => none
  | .pushFs _ => none
  | .pushGs _ => none

/-- The selector on top of the stack, as a POP of this operand size takes it (R72). -/
def stackSel (s : State) : Half := memRead s.mem (linear s .ss (s.reg .esp)) 2

/-- The condition for a POP's stack read (R72, R81). -/
def stackOk (s : State) (op16 : Bool) : Bool := refOk s .ss (s.reg .esp) (itemSize op16) .read

/-- The selector an instruction loads, when its operand can be read. MOV to CS reads none (R71). -/
def loadSel (s : State) : Instr → Option Half
  | .movToSreg p r rm => if r ≠ .cs ∧ rmOk s p rm then some (rmVal s p rm) else none
  | .popEs p => if stackOk s p.op16 then some (stackSel s) else none
  | .popSs p => if stackOk s p.op16 then some (stackSel s) else none
  | .popDs p => if stackOk s p.op16 then some (stackSel s) else none
  | .popFs p => if stackOk s p.op16 then some (stackSel s) else none
  | .popGs p => if stackOk s p.op16 then some (stackSel s) else none
  | .lds p _ m => if memOk s p m (farSize p.op16) .read then some (farSel s p m) else none
  | .lss p _ m => if memOk s p m (farSize p.op16) .read then some (farSel s p m) else none
  | .lgs p _ m => if memOk s p m (farSize p.op16) .read then some (farSel s p m) else none
  | .lfs p _ m => if memOk s p m (farSize p.op16) .read then some (farSel s p m) else none
  | .callPtr _ _ sel => some sel
  | .callMem p m => if memOk s p m (farSize p.op16) .read then some (farSel s p m) else none
  | .jmpPtr _ _ sel => some sel
  | .jmpMem p m => if memOk s p m (farSize p.op16) .read then some (farSel s p m) else none
  | .lgdt _ _ => none
  | .sgdt _ _ => none
  | .lldt _ _ => none
  | .sldt _ _ => none
  | .lar _ _ _ => none
  | .lsl _ _ _ => none
  | .verr _ _ => none
  | .verw _ _ => none
  | .movFromSreg _ _ _ => none
  | .pushEs _ => none
  | .pushCs _ => none
  | .pushSs _ => none
  | .pushDs _ => none
  | .pushFs _ => none
  | .pushGs _ => none

/-- The load-pointer instruction of a segment register: LDS, LSS, LGS, LFS (R73 to R76). -/
def pointerInstr (p : Prefixes) (g : Reg) (m : MemOp) : SegName → Option Instr
  | .ds => some (.lds p g m)
  | .ss => some (.lss p g m)
  | .gs => some (.lgs p g m)
  | .fs => some (.lfs p g m)
  | .cs => none
  | .es => none

/-! ## The invariant -/

/-- What a hidden part filled from a descriptor looks like: P is 1 (R36, R70 step 5), A is 1 in format 1 (R70 step 7), and
the limit is scaled as G says (R32). -/
def Hidden.filled (h : Hidden) : Bool :=
  h.attrs.getLsbD 7 && (!h.attrs.getLsbD 4 || h.attrs.getLsbD 0)
    && (if h.attrs.getLsbD 11 then h.limit.extractLsb' 0 12 == 0xFFF#12 else decide (h.limit.toNat < 2 ^ 20))

/-- The invariant: memory is canonical, CS and SS hold no null selector (R93), and every register that holds a selector
that is not null has a hidden part filled from a descriptor (R70). -/
def State.Inv (s : State) : Prop :=
  s.mem.wf = true ∧ isNull (s.segReg .cs).sel = false ∧ isNull (s.segReg .ss).sel = false ∧
    ∀ r, isNull (s.segReg r).sel = false → Hidden.filled (s.segReg r).hid = true

end Sys2Proof.Machine
end

