-- ==== Sys2Proof/Certificates/Slice0/Obligations.lean ====
section
/-! DEFINITION. The statements. Each docstring names the rules of spec/ it rests on; conditions and effects are those of
Sys2Proof/Safety.lean. Instruction statements speak of `exec`, whose EIP is already that of the next instruction (log 28);
`StepRunsTheDecodedInstruction` carries them to `step`. -/

open Sys2Proof Sys2Proof.Machine

/-! ## Selectors and descriptors -/

/-- R10: `sel.index = sel[15:3]`, `sel.ti = sel[2]`, `sel.rpl = sel[1:0]`, as numbers. -/
def Obligations.SelectorFieldsByBits : Prop :=
  ∀ sel : Half, (selIndex sel).toNat = sel.toNat / 8 ∧ (selTi sel).toNat = sel.toNat / 4 % 2 ∧
    (selRpl sel).toNat = sel.toNat % 4

/-- R11: null exactly when index and table indicator are zero, that is, for the four values 0x0000 to 0x0003. -/
def Obligations.NullSelectorIffIndexAndTiZero : Prop :=
  ∀ sel : Half, (isNull sel = true ↔ selIndex sel = 0 ∧ selTi sel = 0) ∧ (isNull sel = true ↔ sel.toNat < 4)

/-- R24, R25: TI chooses the table; the descriptor lies 8 times the index past its base, mod 2^32; and 8 times the index is
the selector with its three low bits cleared. -/
def Obligations.DescAddrIsBasePlusEightIndex : Prop :=
  ∀ (s : State) (sel : Half),
    tableOf s sel = (if (selTi sel).toNat = 0 then s.gdtr else s.ldtr) ∧
    (descAddr s sel).toNat = ((tableOf s sel).base.toNat + 8 * (selIndex sel).toNat) % 2 ^ 32 ∧
    8 * (selIndex sel).toNat = (sel &&& 0xFFF8).toNat

/-- R29: the base is `D4[31:24]`, `D4[7:0]` and `D0[31:16]`, from the high end; the hidden part of a load holds it, and it is the
linear address of offset 0. -/
def Obligations.BaseIsThreeFragments : Prop :=
  ∀ d0 d4 : Word,
    (descBase d0 d4).toNat = d4.toNat / 2 ^ 24 * 2 ^ 24 + d4.toNat % 2 ^ 8 * 2 ^ 16 + d0.toNat / 2 ^ 16 ∧
    (hiddenOf d0 d4).base = descBase d0 d4 ∧
    ∀ (s : State) (r : SegName), (s.segReg r).hid.base = descBase d0 d4 → linear s r 0 = descBase d0 d4

/-- R30, R31, R32: the 20-bit limit from its two parts; in bytes when G is clear, shifted left by 12 with one-bits inserted
when G is set; G has no effect on the base; the hidden part holds the scaled value. -/
def Obligations.EffectiveLimitScaledByG : Prop :=
  ∀ d0 d4 : Word,
    (descLimit20 d0 d4).toNat = d4.toNat / 2 ^ 16 % 2 ^ 4 * 2 ^ 16 + d0.toNat % 2 ^ 16 ∧
    (d4.getLsbD 23 = false → (descEffLimit d0 d4).toNat = (descLimit20 d0 d4).toNat) ∧
    (d4.getLsbD 23 = true → (descEffLimit d0 d4).toNat = (descLimit20 d0 d4).toNat * 2 ^ 12 + 0xFFF) ∧
    descBase d0 (d4 ^^^ 0x00800000) = descBase d0 d4 ∧
    (hiddenOf d0 d4).limit = descEffLimit d0 d4

/-- R29, R30, R41 and 95 section 2.3 "Round trip": base, limit field and attributes account for all 64 bits. -/
def Obligations.FieldsRebuildTheDescriptor : Prop :=
  ∀ d0 d4 : Word,
    (descBase d0 d4).extractLsb' 0 16 ++ (descLimit20 d0 d4).extractLsb' 0 16 = d0 ∧
    (descBase d0 d4).extractLsb' 24 8 ++ (descAttrs d4).extractLsb' 8 4 ++ (descLimit20 d0 d4).extractLsb' 16 4
      ++ (descAttrs d4).extractLsb' 0 8 ++ (descBase d0 d4).extractLsb' 16 8 = d4

/-! ## Memory and translation -/

/-- R46: the byte at the lowest address holds the low bits; byte `d + 5` of a descriptor is `D4[15:8]`. -/
def Obligations.MemReadIsLittleEndian : Prop :=
  ∀ (m : Memory) (a : Word),
    memRead m a 4 =
      m.read (a + 3).toNat ++ m.read (a + 2).toNat ++ m.read (a + 1).toNat ++ m.read a.toNat ∧
    (descAt m a).d4.extractLsb' 8 8 = m.read (a + 5).toNat

/-- R43, R44, R54 (and R92, R95; log 29 for the order, log 9 for a query not named): `Translate` raises for a null selector
whatever the offset, refuses offsets past 0xFFFFFFFF, raises what ProtCheck raises (the query recorded, log 38), refuses by
name what ProtCheck's data does not name, and otherwise gives base plus offset mod 2^32. -/
def Obligations.TranslateOutcome : Prop :=
  ∀ (s : State) (r : SegName) (off : Word) (n : Nat) (k : RefKind),
    (isNull (s.segReg r).sel = true → translate s r off n k = raise (.nullSegmentReference r)) ∧
    (isNull (s.segReg r).sel = false →
      (2 ^ 32 < off.toNat + n → translate s r off n k = refuse (.offsetWraps r off n)) ∧
      (off.toNat + n ≤ 2 ^ 32 →
        (s.prot.reference r (s.segReg r) off n k = .violation →
          translate s r off n k = raise (.protectionViolation (.reference r off n k))) ∧
        (s.prot.reference r (s.segReg r) off n k = .notNamed →
          translate s r off n k = refuse (.protCheckNotNamed (.reference r off n k))) ∧
        (s.prot.reference r (s.segReg r) off n k = .pass →
          ∃ a, translate s r off n k = .ok a ∧
            a.toNat = ((s.segReg r).hid.base.toNat + off.toNat) % 2 ^ 32)))

/-- R9 (with R51, which passes `SREG[s]` to ProtCheck): a reference depends on the one segment register and on ProtCheck,
on no table, no memory and no other register. -/
def Obligations.TranslateReadsOnlyItsSegmentRegister : Prop :=
  ∀ (s t : State) (r : SegName) (off : Word) (n : Nat) (k : RefKind),
    t.segReg r = s.segReg r → t.prot = s.prot → translate t r off n k = translate s r off n k

/-- R81, R52: a value written through a segment register reads back through it, and every byte outside it is unchanged. -/
def Obligations.ReferenceWrittenReadsBack : Prop :=
  ∀ (s : State) (r : SegName) (off : Word) (n : Nat) (v : BitVec (8 * n)),
    s.mem.wf = true → refOk s r off n .write = true → refOk s r off n .read = true →
    ∃ t, refWrite s r off n v = .ok t ∧ refRead t r off n = .ok v ∧
      SameOutside s.mem t.mem (linear s r off) n ∧ t = { s with mem := t.mem }

/-! ## Loading a segment register: where every loading instruction stops -/

/-- R93: a null selector for CS or SS raises `NullSelectorLoad`, in every instruction that loads one of them. -/
def Obligations.NullIntoCsOrSsRaises : Prop :=
  ∀ (i : Instr) (s : State) (r : SegName) (sel : Half),
    loadTarget i = some r → loadSel s i = some sel → isNull sel = true → r = .cs ∨ r = .ss →
    exec i s = .fault (.nullSelectorLoad r)

/-- R50, R94: a selector that is not null and whose descriptor is not wholly within its table raises
`DescriptorTableLimit`, in every loading instruction; with an LDTR limit below 7 every selector with TI = 1 does. -/
def Obligations.BeyondTableLimitRaises : Prop :=
  ∀ (i : Instr) (s : State) (r : SegName) (sel : Half),
    loadTarget i = some r → loadSel s i = some sel →
    (isNull sel = false → (tableOf s sel).limit.toNat < 8 * (selIndex sel).toNat + 7 →
      exec i s = .fault (.descriptorTableLimit sel)) ∧
    (s.ldtr.limit.toNat < 7 → selTi sel = 1 → exec i s = .fault (.descriptorTableLimit sel))

/-- R91, R36: a selector whose descriptor has P = 0 raises `SegmentNotPresent` in every loading instruction (past the checks
that R97 puts before it; for CS the descriptor is of format 1, R77), and no memory reference ever raises it. -/
def Obligations.NotPresentRaisesAtTheLoad : Prop :=
  (∀ (i : Instr) (s : State) (r : SegName) (sel : Half),
    loadTarget i = some r → loadSel s i = some sel → names s sel = true →
    (r = .cs → descS (namedDesc s sel).d4 = true) →
    s.prot.load (.seg r) sel (namedDesc s sel).d0 (namedDesc s sel).d4 = .pass →
    descP (namedDesc s sel).d4 = false → exec i s = .fault (.segmentNotPresent sel)) ∧
  (∀ (s : State) (r : SegName) (off : Word) (n : Nat) (k : RefKind) (sel : Half),
    translate s r off n k ≠ raise (.segmentNotPresent sel))

/-- R95, R97 (D9; log 9 for a query not named, logs 37 and 38 for the query recorded): what ProtCheck answers for a load decides
before the present bit, whatever that bit is. For CS the descriptor is of format 1 (R77, R78: the plain case). -/
def Obligations.ProtCheckDecidesBeforePresentBit : Prop :=
  ∀ (i : Instr) (s : State) (r : SegName) (sel : Half),
    loadTarget i = some r → loadSel s i = some sel → names s sel = true →
    (r = .cs → descS (namedDesc s sel).d4 = true) →
    (s.prot.load (.seg r) sel (namedDesc s sel).d0 (namedDesc s sel).d4 = .violation →
      exec i s = .fault (.protectionViolation (loadQuery (.seg r) sel (namedDesc s sel).d0 (namedDesc s sel).d4))) ∧
    (s.prot.load (.seg r) sel (namedDesc s sel).d0 (namedDesc s sel).d4 = .notNamed →
      exec i s = .refused (.protCheckNotNamed (loadQuery (.seg r) sel (namedDesc s sel).d0 (namedDesc s sel).d4)))

/-- R40, U3 (log 37: what ProtCheck sees): of a descriptor with P = 0 only `D4[15:8]` is read. A loading instruction, and LLDT,
stops in the same way in two states with the same ProtCheck whose descriptors agree there, whatever their other 56 bits. -/
def Obligations.NotPresentLoadReadsOneByte : Prop :=
  ∀ (s t : State) (sel : Half), t.prot = s.prot →
    (∀ (i : Instr) (r : SegName), loadTarget i = some r → loadSel s i = some sel → loadSel t i = some sel →
      names s sel = true → names t sel = true → descP (namedDesc s sel).d4 = false →
      (namedDesc t sel).d4.extractLsb' 8 8 = (namedDesc s sel).d4.extractLsb' 8 8 → exec i t = exec i s) ∧
    (∀ (p : Prefixes) (rm : RM), rmOk s p rm = true → rmOk t p rm = true → rmVal s p rm = sel → rmVal t p rm = sel →
      isNull (tiCleared sel) = false → inTable s.gdtr sel = true → inTable t.gdtr sel = true →
      descP (descAt s.mem (entryAddr s.gdtr sel)).d4 = false →
      (descAt t.mem (entryAddr t.gdtr sel)).d4.extractLsb' 8 8 = (descAt s.mem (entryAddr s.gdtr sel)).d4.extractLsb' 8 8 →
      exec (.lldt p rm) t = exec (.lldt p rm) s)

/-- R77, R78 (U18): a far CALL or JMP whose descriptor has S = 0 is refused. -/
def Obligations.FarTransferToSystemRefused : Prop :=
  ∀ (i : Instr) (s : State) (sel : Half),
    loadTarget i = some .cs → loadSel s i = some sel → names s sel = true → descS (namedDesc s sel).d4 = false →
    exec i s = .refused (.farTransferToSystem sel)

/-- R71 (U17): MOV with CS as destination is refused, as bytes and as a term. -/
def Obligations.MovToCsRefused : Prop :=
  ∀ (p : Prefixes) (rm : RM) (s : State) (b : Byte) (rest : List Byte),
    exec (.movToSreg p .cs rm) s = .refused .movToCs ∧
    (b.extractLsb' 3 3 = 1 → b.extractLsb' 6 2 = 3 → decode (0x8E :: b :: rest) = .error .movToCs)

/-! ## Loading a segment register: effects -/

/-- R71 (R70): MOV to SS, DS, ES, FS or GS loads the register from the descriptor, or marks DS, ES, FS, GS null; no general
register, EIP or flag changes, and no byte of memory but the accessed bit's. -/
def Obligations.MovLoadsSegmentRegister : Prop :=
  ∀ (p : Prefixes) (r : SegName) (rm : RM) (s : State),
    r ≠ .cs → rmOk s p rm = true →
    (loadOk s r (rmVal s p rm) = true →
      ∃ t, exec (.movToSreg p r rm) s = .next t ∧ SegLoaded s t r (rmVal s p rm) ∧ t.gpr = s.gpr ∧ t.eip = s.eip) ∧
    (isNull (rmVal s p rm) = true → r ≠ .ss →
      ∃ t, exec (.movToSreg p r rm) s = .next t ∧ NullLoaded s t r (rmVal s p rm) ∧ t.gpr = s.gpr ∧ t.eip = s.eip)

/-- R72 (R70): POP ES, SS, DS, FS, GS loads the register with the selector on top of the stack; of the general registers ESP
alone changes, past the item (2 bytes under a 16-bit operand size, else 4: log 21, the model's). -/
def Obligations.PopLoadsSegmentRegister : Prop :=
  ∀ (p : Prefixes) (r : SegName) (i : Instr) (s : State),
    ofPop p r = .ok i → stackOk s p.op16 = true →
    (loadOk s r (stackSel s) = true →
      ∃ t, exec i s = .next t ∧ SegLoaded s t r (stackSel s) ∧ t.eip = s.eip ∧
        t.gpr = s.gpr.set .esp (s.reg .esp + (if p.op16 then 2 else 4))) ∧
    (isNull (stackSel s) = true → r ≠ .ss →
      ∃ t, exec i s = .next t ∧ NullLoaded s t r (stackSel s) ∧ t.eip = s.eip ∧
        t.gpr = s.gpr.set .esp (s.reg .esp + (if p.op16 then 2 else 4)))

/-- R73 to R76 (R70): LDS, LSS, LGS, LFS load the register in their mnemonic with the pointer's selector and one general
register with its offset (its low half only under a 16-bit operand size: log 25, the model's). -/
def Obligations.LoadPointerLoadsSegmentAndOffset : Prop :=
  ∀ (p : Prefixes) (g : Reg) (m : MemOp) (r : SegName) (i : Instr) (s : State),
    pointerInstr p g m r = some i → memOk s p m (farSize p.op16) .read = true →
    (loadOk s r (farSel s p m) = true →
      ∃ t, exec i s = .next t ∧ SegLoaded s t r (farSel s p m) ∧ t.eip = s.eip ∧
        t.gpr = s.gpr.set g
          (if p.op16 then (s.reg g).extractLsb' 16 16 ++ (farOff s p m).setWidth 16 else farOff s p m)) ∧
    (isNull (farSel s p m) = true → r ≠ .ss →
      ∃ t, exec i s = .next t ∧ NullLoaded s t r (farSel s p m) ∧ t.eip = s.eip ∧
        t.gpr = s.gpr.set g
          (if p.op16 then (s.reg g).extractLsb' 16 16 ++ (farOff s p m).setWidth 16 else farOff s p m))

/-- R78 (R70): a far JMP to a format 1 descriptor loads CS and continues at the offset, both forms. -/
def Obligations.FarJumpLoadsCsAndContinues : Prop :=
  ∀ (p : Prefixes) (s : State),
    (∀ (off : Word) (sel : Half), loadOk s .cs sel = true → descS (namedDesc s sel).d4 = true →
      ∃ t, exec (.jmpPtr p off sel) s = .next t ∧ SegLoaded s t .cs sel ∧ t.gpr = s.gpr ∧ t.eip = off) ∧
    (∀ m : MemOp, memOk s p m (farSize p.op16) .read = true → loadOk s .cs (farSel s p m) = true →
      descS (namedDesc s (farSel s p m)).d4 = true →
      ∃ t, exec (.jmpMem p m) s = .next t ∧ SegLoaded s t .cs (farSel s p m) ∧ t.gpr = s.gpr ∧ t.eip = farOff s p m)

/-- R77 (R70): a far CALL to a format 1 descriptor, both forms, in canonical memory. -/
def Obligations.FarCallLoadsCsAndSavesReturn : Prop :=
  ∀ (p : Prefixes) (s : State), s.mem.wf = true →
    (∀ (off : Word) (sel : Half), farCallOk s p.op16 sel = true →
      ∃ t, exec (.callPtr p off sel) s = .next t ∧ FarCalled s t p.op16 sel off) ∧
    (∀ m : MemOp, memOk s p m (farSize p.op16) .read = true → farCallOk s p.op16 (farSel s p m) = true →
      ∃ t, exec (.callMem p m) s = .next t ∧ FarCalled s t p.op16 (farSel s p m) (farOff s p m))

/-- R7: only a load instruction writes the visible part, and after one the register reads back the selector loaded, all 16 bits
of it, RPL included. -/
def Obligations.SelectorLoadedReadsBack : Prop :=
  ∀ (i : Instr) (s t : State) (r : SegName), exec i s = .next t →
    (loadTarget i ≠ some r → (t.segReg r).sel = (s.segReg r).sel) ∧
    (∀ (sel : Half) (p : Prefixes) (g : Reg), loadTarget i = some r → loadSel s i = some sel →
      ∃ u, exec (.movFromSreg p r (.reg g)) t = .next u ∧ (u.reg g).setWidth 16 = sel)

/-- R37 and R49 (D1, D3, log 35: the byte `d + 5`, written only when A was 0): a load of a segment register and a selector
test set the accessed bit of a format 1 descriptor, in memory; nothing of memory changes but that bit, and the bit only from
0 to 1. -/
def Obligations.AccessedBitSetByLoadsAndTests : Prop :=
  ∀ (s t : State) (r : SegName) (sel : Half),
    isNull sel = false → loadSeg s r sel = .ok t ∨ selTest s sel = .ok t →
    (descS (namedDesc s sel).d4 = true → descA (namedDesc t sel).d4 = true) ∧
    AccessedSet s.mem t.mem (namedDesc s sel)

/-- R49, R45 (95 vector L4): loading a register again with the same selector, where ProtCheck passes that too, changes
nothing. -/
def Obligations.ReloadChangesNothing : Prop :=
  ∀ (s t : State) (r : SegName) (sel : Half),
    loadOk s r sel = true → loadSeg s r sel = .ok t → loadOk t r sel = true → loadSeg t r sel = .ok t

/-! ## Table registers -/

/-- R66: LGDT loads GDTR with the pair of its memory operand (16-bit limit, then 32-bit base) and changes nothing else. -/
def Obligations.LgdtLoadsGdtr : Prop :=
  ∀ (p : Prefixes) (m : MemOp) (s : State), memOk s p m 6 .read = true →
    exec (.lgdt p m) s =
      .next { s with gdtr := { base := memRead s.mem (memAddr s p m + 2) 4, limit := memRead s.mem (memAddr s p m) 2 } }

/-- R67: SGDT delivers GDTR's pair to the six bytes of its operand and changes nothing else, in canonical memory. -/
def Obligations.SgdtStoresGdtr : Prop :=
  ∀ (p : Prefixes) (m : MemOp) (s : State), s.mem.wf = true → memOk s p m 6 .write = true →
    ∃ t, exec (.sgdt p m) s = .next t ∧ memRead t.mem (memAddr s p m) 2 = s.gdtr.limit ∧
      memRead t.mem (memAddr s p m + 2) 4 = s.gdtr.base ∧ SameOutside s.mem t.mem (memAddr s p m) 6 ∧
      t = { s with mem := t.mem }

/-- R68, D16 (log 12, the model's composition): LLDT of a selector that is not null fills LDTR with the base and the effective
limit of its GDT descriptor (65535 where the limit is larger, log 11), keeps the selector, and changes nothing else. -/
def Obligations.LldtFillsLdtr : Prop :=
  ∀ (p : Prefixes) (rm : RM) (s : State), rmOk s p rm = true → lldtOk s (rmVal s p rm) = true →
    ∃ t, exec (.lldt p rm) s = .next t ∧
      t = { s with ldtr := t.ldtr, ldtrSel := rmVal s p rm } ∧
      t.ldtr.base = descBase (descAt s.mem (entryAddr s.gdtr (rmVal s p rm))).d0
        (descAt s.mem (entryAddr s.gdtr (rmVal s p rm))).d4 ∧
      t.ldtr.limit.toNat = min 65535 (descEffLimit (descAt s.mem (entryAddr s.gdtr (rmVal s p rm))).d0
        (descAt s.mem (entryAddr s.gdtr (rmVal s p rm))).d4).toNat

/-- R68, R94, D17 (log 13, the model's): LLDT of a selector that is null with TI forced to 0 leaves no table, whatever the free
values are: every selector with TI = 1 is then outside it; nothing but LDTR and its selector changes. -/
def Obligations.LldtNullLeavesNoTable : Prop :=
  ∀ (p : Prefixes) (rm : RM) (s : State), rmOk s p rm = true → isNull (tiCleared (rmVal s p rm)) = true →
    ∃ t, exec (.lldt p rm) s = .next t ∧ t.ldtrSel = rmVal s p rm ∧
      (∀ sel : Half, selTi sel = 1 → inTable (tableOf t sel) sel = false) ∧
      t = { s with ldtr := t.ldtr, ldtrSel := t.ldtrSel, free := t.free }

/-- R68, D16 (log 12, the model's composition): where LLDT stops, in the order of R97: the table limit, then what ProtCheck
answers whatever the present bit is (log 9 for a query not named, logs 37 and 38 for the query recorded), then the present
bit. -/
def Obligations.LldtFaultsInOrder : Prop :=
  ∀ (p : Prefixes) (rm : RM) (s : State), rmOk s p rm = true → isNull (tiCleared (rmVal s p rm)) = false →
    (inTable s.gdtr (rmVal s p rm) = false →
      exec (.lldt p rm) s = .fault (.descriptorTableLimit (rmVal s p rm))) ∧
    (inTable s.gdtr (rmVal s p rm) = true →
      s.prot.load .ldtr (rmVal s p rm) (descAt s.mem (entryAddr s.gdtr (rmVal s p rm))).d0
        (descAt s.mem (entryAddr s.gdtr (rmVal s p rm))).d4 = .violation →
      exec (.lldt p rm) s = .fault (.protectionViolation (loadQuery .ldtr (rmVal s p rm)
        (descAt s.mem (entryAddr s.gdtr (rmVal s p rm))).d0 (descAt s.mem (entryAddr s.gdtr (rmVal s p rm))).d4))) ∧
    (inTable s.gdtr (rmVal s p rm) = true →
      s.prot.load .ldtr (rmVal s p rm) (descAt s.mem (entryAddr s.gdtr (rmVal s p rm))).d0
        (descAt s.mem (entryAddr s.gdtr (rmVal s p rm))).d4 = .notNamed →
      exec (.lldt p rm) s = .refused (.protCheckNotNamed (loadQuery .ldtr (rmVal s p rm)
        (descAt s.mem (entryAddr s.gdtr (rmVal s p rm))).d0 (descAt s.mem (entryAddr s.gdtr (rmVal s p rm))).d4))) ∧
    (inTable s.gdtr (rmVal s p rm) = true →
      s.prot.load .ldtr (rmVal s p rm) (descAt s.mem (entryAddr s.gdtr (rmVal s p rm))).d0
        (descAt s.mem (entryAddr s.gdtr (rmVal s p rm))).d4 = .pass →
      descP (descAt s.mem (entryAddr s.gdtr (rmVal s p rm))).d4 = false →
      exec (.lldt p rm) s = .fault (.segmentNotPresent (rmVal s p rm)))

/-- R69 (and D16, log 14): SLDT delivers LDTR's pair to the abstract destination and the selector last given to LLDT to r/m16
(a register keeps its upper half: log 26, the model's), and changes nothing else; the memory form in canonical memory. -/
def Obligations.SldtDeliversLdtr : Prop :=
  ∀ (p : Prefixes) (s : State),
    (∀ r : Reg, exec (.sldt p (.reg r)) s =
      .next { s with
        sldtDst := { base := s.ldtr.base, limit := s.ldtr.limit }
        gpr := s.gpr.set r ((s.reg r).extractLsb' 16 16 ++ s.ldtrSel) }) ∧
    (∀ m : MemOp, s.mem.wf = true → memOk s p m 2 .write = true →
      ∃ t, exec (.sldt p (.mem m)) s = .next t ∧
        t = { s with sldtDst := { base := s.ldtr.base, limit := s.ldtr.limit }, mem := t.mem } ∧
        memRead t.mem (memAddr s p m) 2 = s.ldtrSel ∧ SameOutside s.mem t.mem (memAddr s p m) 2)

/-- R45, R65, R102: LGDT and LLDT change no translation: references through every segment register go on as before. -/
def Obligations.TableLoadsKeepTranslations : Prop :=
  ∀ (i : Instr) (s t : State) (r : SegName) (off : Word) (n : Nat) (k : RefKind),
    (∃ p m, i = .lgdt p m) ∨ (∃ p rm, i = .lldt p rm) → exec i s = .next t →
    translate t r off n k = translate s r off n k

/-! ## Selector tests and reading a segment register -/

/-- R80 (log 20 for the free results): LAR and LSL of a selector that meets the `require` lines set the accessed bit; ZF and the
destination register are free values (under a 16-bit operand size its low half only, the upper half kept: log 25, the model's),
and nothing else changes. -/
def Obligations.LarLslSetAccessedBit : Prop :=
  ∀ (p : Prefixes) (g : Reg) (rm : RM) (s : State) (i : Instr), i = .lar p g rm ∨ i = .lsl p g rm →
    rmOk s p rm = true → selTestOk s (rmVal s p rm) = true →
    ∃ t, exec i s = .next t ∧ AccessedSet s.mem t.mem (namedDesc s (rmVal s p rm)) ∧ t.seg = s.seg ∧ SameTables s t ∧
      t.eip = s.eip ∧ t.eflags &&& ~~~(0x40 : Word) = s.eflags &&& ~~~(0x40 : Word) ∧
      (∀ q, q ≠ g → t.reg q = s.reg q) ∧
      (p.op16 = true → (t.reg g).extractLsb' 16 16 = (s.reg g).extractLsb' 16 16)

/-- R80 (log 20): VERR and VERW set the accessed bit; ZF is a free value, and nothing else changes. -/
def Obligations.VerrVerwSetAccessedBit : Prop :=
  ∀ (p : Prefixes) (rm : RM) (s : State) (i : Instr), i = .verr p rm ∨ i = .verw p rm →
    rmOk s p rm = true → selTestOk s (rmVal s p rm) = true →
    ∃ t, exec i s = .next t ∧ AccessedSet s.mem t.mem (namedDesc s (rmVal s p rm)) ∧ t.seg = s.seg ∧ SameTables s t ∧
      t.eip = s.eip ∧ t.gpr = s.gpr ∧ t.eflags &&& ~~~(0x40 : Word) = s.eflags &&& ~~~(0x40 : Word)

/-- R80, D19: the cases R80's `require` lines exclude are refused, each by name, in all four selector tests. -/
def Obligations.SelectorTestsRefuseOtherCases : Prop :=
  ∀ (p : Prefixes) (g : Reg) (rm : RM) (s : State) (i : Instr),
    i = .lar p g rm ∨ i = .lsl p g rm ∨ i = .verr p rm ∨ i = .verw p rm → rmOk s p rm = true →
    (isNull (rmVal s p rm) = true → exec i s = .refused (.selectorTest .nullSelector (rmVal s p rm))) ∧
    (isNull (rmVal s p rm) = false → inTable (tableOf s (rmVal s p rm)) (rmVal s p rm) = false →
      exec i s = .refused (.selectorTest .beyondLimit (rmVal s p rm))) ∧
    (names s (rmVal s p rm) = true → descP (namedDesc s (rmVal s p rm)).d4 = false →
      exec i s = .refused (.selectorTest .notPresent (rmVal s p rm))) ∧
    (names s (rmVal s p rm) = true → descP (namedDesc s (rmVal s p rm)).d4 = true →
      descS (namedDesc s (rmVal s p rm)).d4 = false →
      exec i s = .refused (.selectorTest .systemFormat (rmVal s p rm)))

/-- R82: MOV from a segment register delivers the selector to its 16-bit destination (a register keeps its upper half, log 26)
and changes nothing else, null selectors included; the memory form in canonical memory. -/
def Obligations.MovReadsSegmentRegister : Prop :=
  ∀ (p : Prefixes) (r : SegName) (s : State),
    (∀ g : Reg, exec (.movFromSreg p r (.reg g)) s =
      .next { s with gpr := s.gpr.set g ((s.reg g).extractLsb' 16 16 ++ (s.segReg r).sel) }) ∧
    (∀ m : MemOp, s.mem.wf = true → memOk s p m 2 .write = true →
      ∃ t, exec (.movFromSreg p r (.mem m)) s = .next t ∧ t = { s with mem := t.mem } ∧
        memRead t.mem (memAddr s p m) 2 = (s.segReg r).sel ∧ SameOutside s.mem t.mem (memAddr s p m) 2)

/-- R82, R81 (log 21 for the item's size and its upper half): PUSH ES, CS, SS, DS, FS, GS writes the selector to the stack and
moves ESP below the item; nothing else changes. In canonical memory. -/
def Obligations.PushWritesSelectorToStack : Prop :=
  ∀ (p : Prefixes) (r : SegName) (s : State), s.mem.wf = true →
    refOk s .ss (s.reg .esp - BitVec.ofNat 32 (itemSize p.op16)) (itemSize p.op16) .write = true →
    ∃ t, exec (ofPush p r) s = .next t ∧
      memRead t.mem (linear s .ss (s.reg .esp - BitVec.ofNat 32 (itemSize p.op16))) 2 = (s.segReg r).sel ∧
      SameOutside s.mem t.mem (linear s .ss (s.reg .esp - BitVec.ofNat 32 (itemSize p.op16))) (itemSize p.op16) ∧
      t = { s with
        mem := t.mem
        gpr := s.gpr.set .esp (s.reg .esp - (if p.op16 then 2 else 4))
        free := t.free }

/-- R92: every memory reference through a register that holds a null selector raises `NullSegmentReference`, whatever the
offset; an instruction fetch does too (R20, the spec's derivation; log 28, the model's: CS is tested before the bytes are
decoded); reading the register's visible part does not. -/
def Obligations.NullSegmentReferenceRaises : Prop :=
  ∀ (s : State) (r : SegName), isNull (s.segReg r).sel = true →
    (∀ off n k, translate s r off n k = raise (.nullSegmentReference r)) ∧
    (∀ off n, refRead s r off n = raise (.nullSegmentReference r)) ∧
    (∀ off n v, refWrite s r off n v = raise (.nullSegmentReference r)) ∧
    (r = .cs → step s = .fault (.nullSegmentReference .cs)) ∧
    (∀ p g, ∃ t, exec (.movFromSreg p r (.reg g)) s = .next t)

/-- R92, R81 (logs 3, 21, 22 and 27, the model's: which register an operand uses, and the stack): an instruction whose memory
operand goes through a register holding a null selector raises `NullSegmentReference`. When SS holds one, so does every POP and
PUSH of a segment register, and every far CALL whose load of CS passes. -/
def Obligations.NullSegmentOperandRaises : Prop :=
  ∀ (p : Prefixes) (m : MemOp) (g : Reg) (r q : SegName) (off : Word) (sel : Half) (s : State) (i : Instr),
    (isNull (s.segReg (MemOp.seg p m)).sel = true → q ≠ .cs →
      i ∈ [.lgdt p m, .sgdt p m, .lldt p (.mem m), .sldt p (.mem m), .movToSreg p q (.mem m), .lds p g m, .lss p g m,
        .lgs p g m, .lfs p g m, .callMem p m, .jmpMem p m, .lar p g (.mem m), .lsl p g (.mem m), .verr p (.mem m),
        .verw p (.mem m), .movFromSreg p r (.mem m)] →
      exec i s = .fault (.nullSegmentReference (MemOp.seg p m))) ∧
    (isNull (s.segReg .ss).sel = true → ofPop p r = .ok i ∨ i = ofPush p r →
      exec i s = .fault (.nullSegmentReference .ss)) ∧
    (isNull (s.segReg .ss).sel = true → i = .callPtr p off sel ∨ i = .callMem p m → loadSel s i = some sel →
      loadOk s .cs sel = true → descS (namedDesc s sel).d4 = true → exec i s = .fault (.nullSegmentReference .ss))

/-! ## Rules of the whole machine -/

/-- R6, R8: a segment register changes, in either part, only by an instruction that loads it. -/
def Obligations.SegmentRegisterChangesOnlyByLoad : Prop :=
  ∀ (i : Instr) (s t : State) (r : SegName), exec i s = .next t → loadTarget i ≠ some r → t.segReg r = s.segReg r

/-- R12, R13, R65: GDTR changes only by LGDT, LDTR only by LLDT. -/
def Obligations.TableRegistersChangeOnlyByTheirLoads : Prop :=
  ∀ (i : Instr) (s t : State), exec i s = .next t →
    ((∀ p m, i ≠ .lgdt p m) → t.gdtr = s.gdtr) ∧
    ((∀ p rm, i ≠ .lldt p rm) → t.ldtr = s.ldtr ∧ t.ldtrSel = s.ldtrSel)

/-- The rules' "Flags written: none described" (R66 to R78, R82) and log 34: only a selector test writes EFLAGS, and only ZF. -/
def Obligations.FlagsChangeOnlyBySelectorTests : Prop :=
  ∀ (i : Instr) (s t : State), exec i s = .next t →
    t.eflags &&& ~~~(0x40 : Word) = s.eflags &&& ~~~(0x40 : Word) ∧
    ((∀ p g rm, i ≠ .lar p g rm ∧ i ≠ .lsl p g rm ∧ i ≠ .verr p rm ∧ i ≠ .verw p rm) → t.eflags = s.eflags)

/-- R51 (log 9, the model's): ProtCheck is a parameter: no step changes it. -/
def Obligations.StepKeepsProtCheck : Prop :=
  ∀ s t : State, step s = .next t → t.prot = s.prot

/-- The invariant holds after reset (logs 7 and 8: the reset values are the model's choice). -/
def Obligations.ResetMeetsInvariant : Prop := State.reset.Inv

/-- R70, R32, R93, R52: every step keeps the invariant: memory canonical, CS and SS not null, and every register that is not
null holds a hidden part as a load fills it. -/
def Obligations.StepKeepsInvariant : Prop :=
  ∀ s t : State, s.Inv → step s = .next t → t.Inv

/-! ## Encoding and stepping -/

/-- 30_encoding.md section 4: decoding the encoding of any well-formed instruction gives it back, and the bytes after it. -/
def Obligations.DecodeOfEncode : Prop :=
  ∀ (i : Instr) (rest : List Byte), i.wf = true → decode (encode i ++ rest) = .ok (i, rest)

/-- 30_encoding.md section 4: whatever bytes decode to is well-formed, and takes a first part of the bytes, not empty. -/
def Obligations.DecodedIsWellFormed : Prop :=
  ∀ (bs rest : List Byte) (i : Instr), decode bs = .ok (i, rest) →
    i.wf = true ∧ ∃ front, front ≠ [] ∧ bs = front ++ rest

/-- 30_encoding.md section 4 and 95 part 3: words written out from the spec's table and programs. -/
def Obligations.SpecWordsDecode : Prop :=
  (∀ rest : List Byte, decode ([0x0F, 0x01, 0x15, 0x00, 0x20, 0x00, 0x00] ++ rest) =
    .ok (.lgdt ⟨false, false, none⟩ (.abs 0x00002000), rest)) ∧
  (∀ rest : List Byte, decode ([0x0F, 0x00, 0xD0] ++ rest) = .ok (.lldt ⟨false, false, none⟩ (.reg .eax), rest)) ∧
  (∀ rest : List Byte, decode ([0x8E, 0xD8] ++ rest) = .ok (.movToSreg ⟨false, false, none⟩ .ds (.reg .eax), rest)) ∧
  (∀ rest : List Byte, decode ([0x8C, 0xC0] ++ rest) = .ok (.movFromSreg ⟨false, false, none⟩ .es (.reg .eax), rest)) ∧
  (∀ rest : List Byte, decode ([0xEA, 0x00, 0x01, 0x00, 0x00, 0x08, 0x00] ++ rest) =
    .ok (.jmpPtr ⟨false, false, none⟩ 0x00000100 0x0008, rest))

/-- R20, R77, R16 (log 28; log 39 for bytes earlier steps stored): a step runs the decoded instruction: when CS is not null, the bytes at CS's base plus EIP decode to
`i`, and the execute reference to its bytes goes through, the step is `exec i` with EIP moved past those bytes. -/
def Obligations.StepRunsTheDecodedInstruction : Prop :=
  ∀ (s : State) (i : Instr) (rest : List Byte), decode (fetchWindow s) = .ok (i, rest) →
    refOk s .cs s.eip (15 - rest.length) .execute = true →
    step s = exec i { s with eip := s.eip + BitVec.ofNat 32 (15 - rest.length) }

/-- R20, R77 (logs 4, 28 and 39): the same for the bytes of any well-formed instruction: where they lie at CS's base plus EIP, the
step runs it, and EIP moves past exactly its bytes. -/
def Obligations.StepRunsTheEncodedInstruction : Prop :=
  ∀ (s : State) (i : Instr), i.wf = true → readBytes s.mem (fetchAddr s) (encode i).length = encode i →
    refOk s .cs s.eip (encode i).length .execute = true →
    step s = exec i { s with eip := s.eip + BitVec.ofNat 32 (encode i).length }

/-- R92, R79, R54, R95 (logs 28, 29, 38 and 39; log 9 for a query not named): where a fetch stops: a null CS raises; bytes that decode to
nothing are refused by name; of bytes that decode, the execute reference to the instruction's bytes is refused where its offsets
pass 0xFFFFFFFF, and else stops as ProtCheck answers. -/
def Obligations.FetchStops : Prop :=
  ∀ s : State,
    (isNull (s.segReg .cs).sel = true → step s = .fault (.nullSegmentReference .cs)) ∧
    (∀ e, isNull (s.segReg .cs).sel = false → decode (fetchWindow s) = .error e → step s = .refused (.undecodable e)) ∧
    (∀ i rest, isNull (s.segReg .cs).sel = false → decode (fetchWindow s) = .ok (i, rest) →
      (2 ^ 32 < s.eip.toNat + (15 - rest.length) →
        step s = .refused (.offsetWraps .cs s.eip (15 - rest.length))) ∧
      (s.eip.toNat + (15 - rest.length) ≤ 2 ^ 32 →
        (s.prot.reference .cs (s.segReg .cs) s.eip (15 - rest.length) .execute = .violation →
          step s = .fault (.protectionViolation (.reference .cs s.eip (15 - rest.length) .execute))) ∧
        (s.prot.reference .cs (s.segReg .cs) s.eip (15 - rest.length) .execute = .notNamed →
          step s = .refused (.protCheckNotNamed (.reference .cs s.eip (15 - rest.length) .execute)))))

/-- Logs 7, 10 and 36 (the reset values and ProtCheck's data are the model's choice): whatever a table word decodes to runs as the
first instruction after reset. -/
def Obligations.PlacedInstructionRunsFromReset : Prop :=
  ∀ (nbits w : Nat) (i : Instr) (rest : List Byte), decode (tableWindow nbits w) = .ok (i, rest) →
    step (State.reset.withFetchWord nbits w) =
      exec i { State.reset.withFetchWord nbits w with eip := 0xFFF0 + BitVec.ofNat 32 (15 - rest.length) }
end

