-- ==== Sys2Proof/Laws/Decode.lean ====
section
/-! SUPPORT. Each piece of the decoder takes back what the encoder's piece gives. -/

namespace Sys2Proof

/-- Results of decoding compose (the decoder's own `>>=`). -/
@[simp] theorem decode_ok_bind {α β : Type} (a : α) (f : α → Except DecodeError β) : (Except.ok a >>= f) = f a := rfl

@[simp] theorem decode_error_bind {α β : Type} (e : DecodeError) (f : α → Except DecodeError β) :
    ((Except.error e : Except DecodeError α) >>= f) = Except.error e := rfl

/-- A sequence of decoding steps answers exactly when its first part does and the rest does on that. -/
theorem decode_bind_eq_ok {α β : Type} {x : Except DecodeError α} {f : α → Except DecodeError β} {b : β} :
    (x >>= f) = .ok b ↔ ∃ a, x = .ok a ∧ f a = .ok b := by
  cases x with
  | ok a => exact ⟨fun h => ⟨a, rfl, h⟩, fun ⟨_, h, h'⟩ => by cases h; exact h'⟩
  | error e => exact ⟨fun h => (nomatch h), fun ⟨_, h, _⟩ => (nomatch h)⟩

/-! ## Codes -/

@[simp] theorem Reg.ofCode_code (r : Reg) : Reg.ofCode r.code = r := by cases r <;> rfl

theorem Reg.code_ofCode : ∀ c : BitVec 3, (Reg.ofCode c).code = c := by decide

@[simp] theorem SegName.ofCode_code (s : SegName) : SegName.ofCode s.code = .ok s := by cases s <;> rfl

@[simp] theorem Base16.ofCode_code (f : Base16) : Base16.ofCode f.code = f := by cases f <;> rfl

/-! ## Fields and little-endian pieces -/

@[simp] theorem fields233_top (a : BitVec 2) (b c : BitVec 3) : (fields233 a b c).extractLsb' 6 2 = a := by
  revert a b c; decide

@[simp] theorem fields233_mid (a : BitVec 2) (b c : BitVec 3) : (fields233 a b c).extractLsb' 3 3 = b := by
  revert a b c; decide

@[simp] theorem fields233_low (a : BitVec 2) (b c : BitVec 3) : (fields233 a b c).extractLsb' 0 3 = c := by
  revert a b c; decide

theorem join16 (v : Half) : v.extractLsb' 8 8 ++ v.extractLsb' 0 8 = v := by
  apply BitVec.eq_of_getLsbD_eq
  intro j hj
  simp only [BitVec.getLsbD_append, BitVec.getLsbD_extractLsb']
  split
  next h => simp [h]
  next h =>
    have h1 : j - 8 < 8 := by omega
    have h2 : 8 + (j - 8) = j := by omega
    simp [h1, h2]

theorem join32 (v : Word) :
    v.extractLsb' 24 8 ++ v.extractLsb' 16 8 ++ v.extractLsb' 8 8 ++ v.extractLsb' 0 8 = v := by
  apply BitVec.eq_of_getLsbD_eq
  intro j hj
  simp only [BitVec.getLsbD_append, BitVec.getLsbD_extractLsb']
  split
  next h => simp [h]
  next h =>
    split
    next h' =>
      have h2 : 8 + (j - 8) = j := by omega
      simp [h', h2]
    next h' =>
      split
      next h'' =>
        have h2 : 16 + (j - 8 - 8) = j := by omega
        simp [h'', h2]
      next h'' =>
        have h1 : j - 8 - 8 - 8 < 8 := by omega
        have h2 : 24 + (j - 8 - 8 - 8) = j := by omega
        simp [h1, h2]

@[simp] theorem take8_cons (b : Byte) (rest : List Byte) : take8 (b :: rest) = .ok (b, rest) := rfl

@[simp] theorem take16_bytes16 (v : Half) (rest : List Byte) : take16 (bytes16 v ++ rest) = .ok (v, rest) := by
  simp [bytes16, take16, join16]

@[simp] theorem take32_bytes32 (v : Word) (rest : List Byte) : take32 (bytes32 v ++ rest) = .ok (v, rest) := by
  simp [bytes32, take32, join32]

/-! ## ModR/M -/

@[simp] theorem takeDisp_bytes (d : Disp) (rest : List Byte) : takeDisp d.mod (d.bytes ++ rest) = .ok (d, rest) := by
  cases d <;> simp [takeDisp, Disp.mod, Disp.bytes]

@[simp] theorem takeDisp16_bytes (d : Disp16) (rest : List Byte) :
    takeDisp16 d.mod (d.bytes ++ rest) = .ok (d, rest) := by
  cases d <;> simp [takeDisp16, Disp16.mod, Disp16.bytes]

theorem Disp.mod_ne_three (d : Disp) : d.mod ≠ 3 := by cases d <;> simp [Disp.mod]

theorem Disp16.mod_ne_three (d : Disp16) : d.mod ≠ 3 := by cases d <;> simp [Disp16.mod]

theorem Disp.mod_eq_zero {d : Disp} : d.mod = 0 ↔ d = .none := by cases d <;> simp [Disp.mod]

theorem Disp16.mod_eq_zero {d : Disp16} : d.mod = 0 ↔ d = .none := by cases d <;> simp [Disp16.mod]

theorem Reg.code_eq_four {r : Reg} : r.code = 4 ↔ r = .esp := by cases r <;> simp [Reg.code]

theorem Reg.code_eq_five {r : Reg} : r.code = 5 ↔ r = .ebp := by cases r <;> simp [Reg.code]

theorem Base16.code_eq_six {f : Base16} : f.code = 6 ↔ f = .bp := by cases f <;> simp [Base16.code]

/-- A well-formed r/m operand decodes from its encoding, with the `reg` field beside it. -/
theorem takeModRM_encode {p : Prefixes} {rm : RM} (g : BitVec 3) (rest : List Byte) (h : rm.wfIn p = true) :
    takeModRM p (encodeModRM g rm ++ rest) = .ok (g, rm, rest) := by
  cases rm with
  | reg r => simp [encodeModRM, takeModRM]
  | mem m =>
    simp only [RM.wfIn, MemOp.wfIn, Bool.and_eq_true, beq_iff_eq] at h
    obtain ⟨w, a⟩ := h
    cases m with
    | base b d =>
      simp only [MemOp.wf, Bool.and_eq_true, bne_iff_ne, ne_eq, Bool.not_eq_true', Bool.and_eq_false_iff, beq_eq_false_iff_ne] at w
      have h5 : ¬ (d.mod = 0 ∧ b.code = 5) := by
        rw [Disp.mod_eq_zero, Reg.code_eq_five]
        rintro ⟨rfl, rfl⟩
        simp at w
      have h4 : b.code ≠ 4 := fun e => w.1 (Reg.code_eq_four.mp e)
      have h3 := d.mod_ne_three
      simp only [BitVec.ofNat_eq_ofNat] at h3 h4 h5
      simp [encodeModRM, takeModRM, takeMem32, ← a, MemOp.is16, h3, h5, h4]
    | abs v => simp [encodeModRM, takeModRM, takeMem32, ← a, MemOp.is16]
    | sib b x sc d =>
      simp only [MemOp.wf, Bool.not_eq_true', Bool.and_eq_false_iff, beq_eq_false_iff_ne] at w
      have h5 : ¬ (d.mod = 0 ∧ b.code = 5) := by
        rw [Disp.mod_eq_zero, Reg.code_eq_five]
        rintro ⟨rfl, rfl⟩
        simp at w
      have h3 := d.mod_ne_three
      simp only [BitVec.ofNat_eq_ofNat] at h3 h5
      simp [encodeModRM, takeModRM, takeMem32, ← a, MemOp.is16, h3, h5]
    | sibAbs x sc v => simp [encodeModRM, takeModRM, takeMem32, ← a, MemOp.is16]
    | base16 f d =>
      simp only [MemOp.wf, Bool.not_eq_true', Bool.and_eq_false_iff, beq_eq_false_iff_ne] at w
      have h6 : ¬ (d.mod = 0 ∧ f.code = 6) := by
        rw [Disp16.mod_eq_zero, Base16.code_eq_six]
        rintro ⟨rfl, rfl⟩
        simp at w
      have h3 := d.mod_ne_three
      simp only [BitVec.ofNat_eq_ofNat] at h3 h6
      simp [encodeModRM, takeModRM, takeMem16, ← a, MemOp.is16, h3, h6]
    | abs16 v => simp [encodeModRM, takeModRM, takeMem16, ← a, MemOp.is16]

/-! ## Opcodes, far pointers, and the bytes before the opcode -/

theorem takeOpcode_bytes {op : Opcode} (rest : List Byte) (h : op ≠ .pop .cs) :
    takeOpcode (op.bytes ++ rest) = .ok (op, rest) := by
  cases op with
  | push s => cases s <;> rfl
  | pop s => cases s <;> first | rfl | exact absurd rfl h
  | _ => rfl

theorem farOff_low {off : Word} (h : off.toNat < 65536) : (off.setWidth 16).setWidth 32 = off := by
  apply BitVec.eq_of_toNat_eq
  simp only [BitVec.toNat_setWidth]
  omega

theorem takeFar_encode {p : Prefixes} {off : Word} (sel : Half) (rest : List Byte) (h : farOffWf p off = true) :
    takeFar p (encodeFar p off sel ++ rest) = .ok (off, sel, rest) := by
  simp only [farOffWf, Bool.or_eq_true, Bool.not_eq_true', decide_eq_true_eq] at h
  cases hp : p.op16 with
  | true =>
    have : off.toNat < 65536 := by simpa [hp] using h
    simp [takeFar, encodeFar, hp, farOff_low this]
  | false => simp [takeFar, encodeFar, hp]

theorem takeLeading_stop {p : Prefixes} {b : Byte} (rest : List Byte) (h : ∀ q, addLeading q b = none) :
    takeLeading p (b :: rest) = (p, b :: rest) := by
  simp [takeLeading, h]

theorem takeLeading_op16 (p : Prefixes) (bs : List Byte) :
    takeLeading p (0x66 :: bs) = takeLeading { p with op16 := true } bs := rfl

theorem takeLeading_addr16 (p : Prefixes) (bs : List Byte) :
    takeLeading p (0x67 :: bs) = takeLeading { p with addr16 := true } bs := rfl

theorem takeLeading_seg (p : Prefixes) (s : SegName) (bs : List Byte) :
    takeLeading p (overrideByte s :: bs) = takeLeading { p with seg := some s } bs := by cases s <;> rfl

/-- The bytes before the opcode are taken back from their encoding, up to the first byte that is none of them. -/
theorem takeLeading_encode {p : Prefixes} {b : Byte} (rest : List Byte) (h : ∀ q, addLeading q b = none) :
    takeLeading ⟨false, false, none⟩ (encodeLeading p ++ b :: rest) = (p, b :: rest) := by
  obtain ⟨o, a, s⟩ := p
  cases s <;> cases o <;> cases a <;>
    simp only [encodeLeading, Bool.false_eq_true, if_false, if_true, List.append_nil, List.nil_append, List.cons_append,
      takeLeading_op16, takeLeading_addr16, takeLeading_seg, takeLeading_stop rest h]

end Sys2Proof
end

