-- ==== Sys2Proof/Laws/Memory.lean ====
section
/-! SUPPORT. The laws of linear memory: reads after writes, and the canonical form. -/

namespace Sys2Proof.Machine

/-! ## One byte -/

theorem Memory.wfFrom_cons {lo k : Nat} {b : Byte} {m : Memory} :
    Memory.wfFrom lo ((k, b) :: m) = true ↔
      lo ≤ k ∧ k < 2 ^ 32 ∧ b ≠ Memory.unlisted ∧ Memory.wfFrom (k + 1) m = true := by
  simp [Memory.wfFrom, and_assoc]

theorem Memory.wfFrom_mono {lo lo' : Nat} {m : Memory} (h : Memory.wfFrom lo m = true) (le : lo' ≤ lo) :
    Memory.wfFrom lo' m = true := by
  cases m with
  | nil => rfl
  | cons c rest =>
    obtain ⟨k, b⟩ := c
    rw [Memory.wfFrom_cons] at h ⊢
    exact ⟨Nat.le_trans le h.1, h.2⟩

/-- Below the first address it may list, a canonical memory reads as unlisted. -/
theorem Memory.read_below {lo x : Nat} {m : Memory} (h : Memory.wfFrom lo m = true) (lt : x < lo) :
    m.read x = Memory.unlisted := by
  induction m generalizing lo with
  | nil => rfl
  | cons c rest ih =>
    obtain ⟨k, b⟩ := c
    rw [Memory.wfFrom_cons] at h
    have ne : k ≠ x := by omega
    simp only [Memory.read, ne, if_false]
    exact ih h.2.2.2 (by omega)

/-- Writing one byte leaves every other byte alone. -/
theorem Memory.read_write_ne {m : Memory} {a x : Nat} {b : Byte} (ne : x ≠ a) : (m.write a b).read x = m.read x := by
  have ne' : a ≠ x := fun h => ne h.symm
  induction m with
  | nil =>
    simp only [Memory.write]
    split
    · rfl
    · simp [Memory.read, ne']
  | cons c rest ih =>
    obtain ⟨k, c⟩ := c
    simp only [Memory.write]
    split
    · split
      · rfl
      · simp [Memory.read, ne']
    · split
      · subst_vars
        split <;> simp [Memory.read, ne']
      · simp only [Memory.read, ih]

/-- In a canonical memory, a byte written reads back. -/
theorem Memory.read_write_same {lo : Nat} {m : Memory} {a : Nat} {b : Byte} (h : Memory.wfFrom lo m = true) :
    (m.write a b).read a = b := by
  induction m generalizing lo with
  | nil =>
    simp only [Memory.write]
    split
    · simp_all [Memory.read]
    · simp [Memory.read]
  | cons c rest ih =>
    obtain ⟨k, c⟩ := c
    have h' := Memory.wfFrom_cons.mp h
    simp only [Memory.write]
    split
    next lt =>
      split
      next z =>
        rw [z]
        exact Memory.read_below (lo := k) (Memory.wfFrom_cons.mpr ⟨Nat.le_refl k, h'.2⟩) lt
      next => simp [Memory.read]
    next nlt =>
      split
      next e =>
        subst e
        split
        next z => rw [z]; exact Memory.read_below h'.2.2.2 (by omega)
        next => simp [Memory.read]
      next ne =>
        have ne' : k ≠ a := fun e => ne e.symm
        simp only [Memory.read, ne', if_false]
        exact ih h'.2.2.2

/-- A nonzero byte written reads back in any memory. -/
theorem Memory.read_write_nonzero {m : Memory} {a : Nat} {b : Byte} (nz : b ≠ Memory.unlisted) :
    (m.write a b).read a = b := by
  induction m with
  | nil => simp [Memory.write, Memory.read, nz]
  | cons c rest ih =>
    obtain ⟨k, c⟩ := c
    simp only [Memory.write, nz, if_false]
    split
    · simp [Memory.read]
    · split
      · simp [Memory.read]
      next ne =>
        have ne' : k ≠ a := fun e => ne e.symm
        simp only [Memory.read, ne', if_false]
        exact ih

theorem Memory.wfFrom_write {lo : Nat} {m : Memory} {a : Nat} {b : Byte} (h : Memory.wfFrom lo m = true) (le : lo ≤ a)
    (lt : a < 2 ^ 32) : Memory.wfFrom lo (m.write a b) = true := by
  induction m generalizing lo with
  | nil =>
    simp only [Memory.write]
    split
    · rfl
    next nz => exact Memory.wfFrom_cons.mpr ⟨le, lt, nz, rfl⟩
  | cons c rest ih =>
    obtain ⟨k, c⟩ := c
    have h' := Memory.wfFrom_cons.mp h
    simp only [Memory.write]
    split
    next l =>
      split
      · exact h
      next nz => exact Memory.wfFrom_cons.mpr ⟨le, lt, nz, Memory.wfFrom_cons.mpr ⟨l, h'.2⟩⟩
    next nl =>
      split
      next e =>
        subst e
        split
        · exact Memory.wfFrom_mono h'.2.2.2 (by omega)
        next nz => exact Memory.wfFrom_cons.mpr ⟨le, lt, nz, h'.2.2.2⟩
      next ne => exact Memory.wfFrom_cons.mpr ⟨h'.1, h'.2.1, h'.2.2.1, ih h'.2.2.2 (by omega)⟩

/-- Writing a byte at a linear address keeps the canonical form. -/
theorem Memory.wf_write {m : Memory} (a : Word) (b : Byte) (h : m.wf = true) : (m.write a.toNat b).wf = true :=
  Memory.wfFrom_write h (Nat.zero_le _) a.isLt

/-! ## Values of several bytes -/

theorem word_add_one_add (a : Word) (i : Nat) : a + 1 + BitVec.ofNat 32 i = a + BitVec.ofNat 32 (i + 1) := by
  apply BitVec.eq_of_toNat_eq
  simp [BitVec.toNat_add, BitVec.toNat_ofNat]
  omega

/-- Writing a value keeps the canonical form. -/
theorem memWrite_wf {m : Memory} {a : Word} {n : Nat} {v : BitVec (8 * n)} (h : m.wf = true) :
    (memWrite m a n v).wf = true := by
  induction n generalizing m a with
  | zero => exact h
  | succ n ih => exact ih (Memory.wf_write a _ h)

/-- Writing a value leaves every byte outside it alone. -/
theorem read_memWrite_outside {m : Memory} {a : Word} {n : Nat} {v : BitVec (8 * n)} {x : Nat}
    (h : ∀ i, i < n → x ≠ (a + BitVec.ofNat 32 i).toNat) : (memWrite m a n v).read x = m.read x := by
  induction n generalizing m a with
  | zero => rfl
  | succ n ih =>
    simp only [memWrite]
    rw [ih]
    · apply Memory.read_write_ne
      have := h 0 (Nat.succ_pos n)
      simpa using this
    · intro i hi
      rw [word_add_one_add]
      exact h (i + 1) (Nat.succ_lt_succ hi)

/-- Each byte of a value written reads back, in a canonical memory. -/
theorem read_memWrite_inside {m : Memory} {a : Word} {n : Nat} {v : BitVec (8 * n)} {i : Nat} (hm : m.wf = true)
    (hn : n ≤ 2 ^ 32) (hi : i < n) :
    (memWrite m a n v).read (a + BitVec.ofNat 32 i).toNat = v.extractLsb' (8 * i) 8 := by
  induction n generalizing m a i with
  | zero => omega
  | succ n ih =>
    simp only [memWrite]
    cases i with
    | zero =>
      rw [read_memWrite_outside]
      · have := Memory.read_write_same (lo := 0) (m := m) (a := a.toNat) (b := v.setWidth 8) hm
        simp only [BitVec.add_zero, Nat.mul_zero]
        rw [this]
        apply BitVec.eq_of_getLsbD_eq
        intro j hj
        simp [hj]
      · intro j hj
        rw [word_add_one_add]
        intro e
        have := congrArg (fun z => z) e
        simp [BitVec.toNat_add, BitVec.toNat_ofNat] at this
        have := a.isLt
        omega
    | succ i =>
      rw [← word_add_one_add, ih (Memory.wf_write a _ hm) (by omega) (by omega)]
      apply BitVec.eq_of_getLsbD_eq
      intro j hj
      simp only [BitVec.getLsbD_extractLsb', hj, decide_true, Bool.true_and]
      have : 8 * i + j < 8 * n := by omega
      simp only [this, decide_true, Bool.true_and]
      congr 1
      omega

/-- Byte `i` of a value read is the byte at address `a + i`. -/
theorem memRead_byte {m : Memory} {a : Word} {n i : Nat} (hi : i < n) :
    (memRead m a n).extractLsb' (8 * i) 8 = m.read (a + BitVec.ofNat 32 i).toNat := by
  induction n generalizing a i with
  | zero => omega
  | succ n ih =>
    simp only [memRead]
    cases i with
    | zero =>
      apply BitVec.eq_of_getLsbD_eq
      intro j hj
      simp [hj, BitVec.getLsbD_append]
    | succ i =>
      rw [← word_add_one_add, ← ih (a := a + 1) (by omega)]
      apply BitVec.eq_of_getLsbD_eq
      intro j hj
      simp only [BitVec.getLsbD_extractLsb', hj, decide_true, Bool.true_and]
      rw [BitVec.getLsbD_append]
      have : ¬ (8 * (i + 1) + j < 8) := by omega
      simp only [this, if_false]
      congr 1
      omega

/-- Two memories that agree on the bytes read give the same value. -/
theorem memRead_congr {m m' : Memory} {a : Word} {n : Nat}
    (h : ∀ i, i < n → m'.read (a + BitVec.ofNat 32 i).toNat = m.read (a + BitVec.ofNat 32 i).toNat) :
    memRead m' a n = memRead m a n := by
  induction n generalizing a with
  | zero => rfl
  | succ n ih =>
    simp only [memRead]
    rw [ih (fun i hi => by rw [word_add_one_add]; exact h (i + 1) (by omega))]
    have := h 0 (by omega)
    simp only [BitVec.add_zero] at this
    rw [this]

/-- A value is its bytes. -/
theorem eq_of_bytes {n : Nat} {v w : BitVec (8 * n)}
    (h : ∀ i, i < n → v.extractLsb' (8 * i) 8 = w.extractLsb' (8 * i) 8) : v = w := by
  apply BitVec.eq_of_getLsbD_eq
  intro j hj
  have hb := congrArg (fun b => b.getLsbD (j % 8)) (h (j / 8) (by omega))
  simp only [BitVec.getLsbD_extractLsb'] at hb
  have h8 : j % 8 < 8 := by omega
  have e : 8 * (j / 8) + j % 8 = j := by omega
  simpa [h8, e] using hb

/-- A value written reads back, in a canonical memory. -/
theorem memRead_memWrite_same {m : Memory} {a : Word} {n : Nat} {v : BitVec (8 * n)} (hm : m.wf = true)
    (hn : n ≤ 2 ^ 32) : memRead (memWrite m a n v) a n = v :=
  eq_of_bytes fun i hi => by rw [memRead_byte hi, read_memWrite_inside hm hn hi]

end Sys2Proof.Machine
end

