-- ==== Sys2Proof/Laws/State.lean ====
section
/-! SUPPORT. One lemma per field per update of State, true by rfl, and the laws of the register files. -/

namespace Sys2Proof.Machine

/-! ## Register files -/

@[simp] theorem SegFile.get_set_same (f : SegFile) (r : SegName) (v : SegReg) : (f.set r v).get r = v := by
  cases r <;> rfl

theorem SegFile.get_set_ne (f : SegFile) {r q : SegName} (v : SegReg) (h : q ≠ r) : (f.set r v).get q = f.get q := by
  cases r <;> cases q <;> first | rfl | exact absurd rfl h

@[simp] theorem Gprs.get_set_same (f : Gprs) (r : Reg) (v : Word) : (f.set r v).get r = v := by
  cases r <;> rfl

theorem Gprs.get_set_ne (f : Gprs) {r q : Reg} (v : Word) (h : q ≠ r) : (f.set r v).get q = f.get q := by
  cases r <;> cases q <;> first | rfl | exact absurd rfl h

@[simp] theorem segReg_setSeg_same (s : State) (r : SegName) (v : SegReg) : (s.setSeg r v).segReg r = v :=
  SegFile.get_set_same _ _ _

theorem segReg_setSeg_ne (s : State) {r q : SegName} (v : SegReg) (h : q ≠ r) :
    (s.setSeg r v).segReg q = s.segReg q := SegFile.get_set_ne _ _ h

@[simp] theorem reg_setReg_same (s : State) (r : Reg) (v : Word) : (s.setReg r v).reg r = v :=
  Gprs.get_set_same _ _ _

theorem reg_setReg_ne (s : State) {r q : Reg} (v : Word) (h : q ≠ r) : (s.setReg r v).reg q = s.reg q :=
  Gprs.get_set_ne _ _ h

/-! ## setSeg -/

@[simp] theorem setSeg_gpr (s : State) (r : SegName) (v : SegReg) : (s.setSeg r v).gpr = s.gpr := rfl
@[simp] theorem setSeg_eip (s : State) (r : SegName) (v : SegReg) : (s.setSeg r v).eip = s.eip := rfl
@[simp] theorem setSeg_eflags (s : State) (r : SegName) (v : SegReg) : (s.setSeg r v).eflags = s.eflags := rfl
@[simp] theorem setSeg_seg (s : State) (r : SegName) (v : SegReg) : (s.setSeg r v).seg = s.seg.set r v := rfl
@[simp] theorem setSeg_gdtr (s : State) (r : SegName) (v : SegReg) : (s.setSeg r v).gdtr = s.gdtr := rfl
@[simp] theorem setSeg_ldtr (s : State) (r : SegName) (v : SegReg) : (s.setSeg r v).ldtr = s.ldtr := rfl
@[simp] theorem setSeg_ldtrSel (s : State) (r : SegName) (v : SegReg) : (s.setSeg r v).ldtrSel = s.ldtrSel := rfl
@[simp] theorem setSeg_sldtDst (s : State) (r : SegName) (v : SegReg) : (s.setSeg r v).sldtDst = s.sldtDst := rfl
@[simp] theorem setSeg_mem (s : State) (r : SegName) (v : SegReg) : (s.setSeg r v).mem = s.mem := rfl
@[simp] theorem setSeg_prot (s : State) (r : SegName) (v : SegReg) : (s.setSeg r v).prot = s.prot := rfl
@[simp] theorem setSeg_free (s : State) (r : SegName) (v : SegReg) : (s.setSeg r v).free = s.free := rfl
@[simp] theorem setSeg_reg (s : State) (r : SegName) (v : SegReg) (q : Reg) : (s.setSeg r v).reg q = s.reg q := rfl

/-! ## setReg -/

@[simp] theorem setReg_gpr (s : State) (r : Reg) (v : Word) : (s.setReg r v).gpr = s.gpr.set r v := rfl
@[simp] theorem setReg_eip (s : State) (r : Reg) (v : Word) : (s.setReg r v).eip = s.eip := rfl
@[simp] theorem setReg_eflags (s : State) (r : Reg) (v : Word) : (s.setReg r v).eflags = s.eflags := rfl
@[simp] theorem setReg_seg (s : State) (r : Reg) (v : Word) : (s.setReg r v).seg = s.seg := rfl
@[simp] theorem setReg_gdtr (s : State) (r : Reg) (v : Word) : (s.setReg r v).gdtr = s.gdtr := rfl
@[simp] theorem setReg_ldtr (s : State) (r : Reg) (v : Word) : (s.setReg r v).ldtr = s.ldtr := rfl
@[simp] theorem setReg_ldtrSel (s : State) (r : Reg) (v : Word) : (s.setReg r v).ldtrSel = s.ldtrSel := rfl
@[simp] theorem setReg_sldtDst (s : State) (r : Reg) (v : Word) : (s.setReg r v).sldtDst = s.sldtDst := rfl
@[simp] theorem setReg_mem (s : State) (r : Reg) (v : Word) : (s.setReg r v).mem = s.mem := rfl
@[simp] theorem setReg_prot (s : State) (r : Reg) (v : Word) : (s.setReg r v).prot = s.prot := rfl
@[simp] theorem setReg_free (s : State) (r : Reg) (v : Word) : (s.setReg r v).free = s.free := rfl
@[simp] theorem setReg_segReg (s : State) (r : Reg) (v : Word) (q : SegName) : (s.setReg r v).segReg q = s.segReg q := rfl

/-! ## setMem -/

@[simp] theorem setMem_gpr (s : State) (m : Memory) : (s.setMem m).gpr = s.gpr := rfl
@[simp] theorem setMem_eip (s : State) (m : Memory) : (s.setMem m).eip = s.eip := rfl
@[simp] theorem setMem_eflags (s : State) (m : Memory) : (s.setMem m).eflags = s.eflags := rfl
@[simp] theorem setMem_seg (s : State) (m : Memory) : (s.setMem m).seg = s.seg := rfl
@[simp] theorem setMem_gdtr (s : State) (m : Memory) : (s.setMem m).gdtr = s.gdtr := rfl
@[simp] theorem setMem_ldtr (s : State) (m : Memory) : (s.setMem m).ldtr = s.ldtr := rfl
@[simp] theorem setMem_ldtrSel (s : State) (m : Memory) : (s.setMem m).ldtrSel = s.ldtrSel := rfl
@[simp] theorem setMem_sldtDst (s : State) (m : Memory) : (s.setMem m).sldtDst = s.sldtDst := rfl
@[simp] theorem setMem_mem (s : State) (m : Memory) : (s.setMem m).mem = m := rfl
@[simp] theorem setMem_prot (s : State) (m : Memory) : (s.setMem m).prot = s.prot := rfl
@[simp] theorem setMem_free (s : State) (m : Memory) : (s.setMem m).free = s.free := rfl
@[simp] theorem setMem_segReg (s : State) (m : Memory) (q : SegName) : (s.setMem m).segReg q = s.segReg q := rfl
@[simp] theorem setMem_reg (s : State) (m : Memory) (q : Reg) : (s.setMem m).reg q = s.reg q := rfl

/-! ## setEip -/

@[simp] theorem setEip_gpr (s : State) (v : Word) : (s.setEip v).gpr = s.gpr := rfl
@[simp] theorem setEip_eip (s : State) (v : Word) : (s.setEip v).eip = v := rfl
@[simp] theorem setEip_eflags (s : State) (v : Word) : (s.setEip v).eflags = s.eflags := rfl
@[simp] theorem setEip_seg (s : State) (v : Word) : (s.setEip v).seg = s.seg := rfl
@[simp] theorem setEip_gdtr (s : State) (v : Word) : (s.setEip v).gdtr = s.gdtr := rfl
@[simp] theorem setEip_ldtr (s : State) (v : Word) : (s.setEip v).ldtr = s.ldtr := rfl
@[simp] theorem setEip_ldtrSel (s : State) (v : Word) : (s.setEip v).ldtrSel = s.ldtrSel := rfl
@[simp] theorem setEip_sldtDst (s : State) (v : Word) : (s.setEip v).sldtDst = s.sldtDst := rfl
@[simp] theorem setEip_mem (s : State) (v : Word) : (s.setEip v).mem = s.mem := rfl
@[simp] theorem setEip_prot (s : State) (v : Word) : (s.setEip v).prot = s.prot := rfl
@[simp] theorem setEip_free (s : State) (v : Word) : (s.setEip v).free = s.free := rfl
@[simp] theorem setEip_segReg (s : State) (v : Word) (q : SegName) : (s.setEip v).segReg q = s.segReg q := rfl
@[simp] theorem setEip_reg (s : State) (v : Word) (q : Reg) : (s.setEip v).reg q = s.reg q := rfl

/-! ## setLdtr -/

@[simp] theorem setLdtr_gpr (s : State) (b : Word) (l : DtrLimit) : (setLdtr s b l).gpr = s.gpr := rfl
@[simp] theorem setLdtr_eip (s : State) (b : Word) (l : DtrLimit) : (setLdtr s b l).eip = s.eip := rfl
@[simp] theorem setLdtr_eflags (s : State) (b : Word) (l : DtrLimit) : (setLdtr s b l).eflags = s.eflags := rfl
@[simp] theorem setLdtr_seg (s : State) (b : Word) (l : DtrLimit) : (setLdtr s b l).seg = s.seg := rfl
@[simp] theorem setLdtr_gdtr (s : State) (b : Word) (l : DtrLimit) : (setLdtr s b l).gdtr = s.gdtr := rfl
@[simp] theorem setLdtr_ldtr (s : State) (b : Word) (l : DtrLimit) : (setLdtr s b l).ldtr = ⟨b, l⟩ := rfl
@[simp] theorem setLdtr_ldtrSel (s : State) (b : Word) (l : DtrLimit) : (setLdtr s b l).ldtrSel = s.ldtrSel := rfl
@[simp] theorem setLdtr_sldtDst (s : State) (b : Word) (l : DtrLimit) : (setLdtr s b l).sldtDst = s.sldtDst := rfl
@[simp] theorem setLdtr_mem (s : State) (b : Word) (l : DtrLimit) : (setLdtr s b l).mem = s.mem := rfl
@[simp] theorem setLdtr_prot (s : State) (b : Word) (l : DtrLimit) : (setLdtr s b l).prot = s.prot := rfl
@[simp] theorem setLdtr_free (s : State) (b : Word) (l : DtrLimit) : (setLdtr s b l).free = s.free := rfl
@[simp] theorem setLdtr_segReg (s : State) (b : Word) (l : DtrLimit) (q : SegName) : (setLdtr s b l).segReg q = s.segReg q := rfl
@[simp] theorem setLdtr_reg (s : State) (b : Word) (l : DtrLimit) (q : Reg) : (setLdtr s b l).reg q = s.reg q := rfl

/-! ## setGdtr -/

@[simp] theorem setGdtr_gpr (s : State) (b : Word) (l : DtrLimit) : (setGdtr s b l).gpr = s.gpr := rfl
@[simp] theorem setGdtr_eip (s : State) (b : Word) (l : DtrLimit) : (setGdtr s b l).eip = s.eip := rfl
@[simp] theorem setGdtr_eflags (s : State) (b : Word) (l : DtrLimit) : (setGdtr s b l).eflags = s.eflags := rfl
@[simp] theorem setGdtr_seg (s : State) (b : Word) (l : DtrLimit) : (setGdtr s b l).seg = s.seg := rfl
@[simp] theorem setGdtr_gdtr (s : State) (b : Word) (l : DtrLimit) : (setGdtr s b l).gdtr = ⟨b, l⟩ := rfl
@[simp] theorem setGdtr_ldtr (s : State) (b : Word) (l : DtrLimit) : (setGdtr s b l).ldtr = s.ldtr := rfl
@[simp] theorem setGdtr_ldtrSel (s : State) (b : Word) (l : DtrLimit) : (setGdtr s b l).ldtrSel = s.ldtrSel := rfl
@[simp] theorem setGdtr_sldtDst (s : State) (b : Word) (l : DtrLimit) : (setGdtr s b l).sldtDst = s.sldtDst := rfl
@[simp] theorem setGdtr_mem (s : State) (b : Word) (l : DtrLimit) : (setGdtr s b l).mem = s.mem := rfl
@[simp] theorem setGdtr_prot (s : State) (b : Word) (l : DtrLimit) : (setGdtr s b l).prot = s.prot := rfl
@[simp] theorem setGdtr_free (s : State) (b : Word) (l : DtrLimit) : (setGdtr s b l).free = s.free := rfl
@[simp] theorem setGdtr_segReg (s : State) (b : Word) (l : DtrLimit) (q : SegName) : (setGdtr s b l).segReg q = s.segReg q := rfl
@[simp] theorem setGdtr_reg (s : State) (b : Word) (l : DtrLimit) (q : Reg) : (setGdtr s b l).reg q = s.reg q := rfl

/-! ## advance -/

@[simp] theorem advance_gpr (s : State) (n : Nat) : (advance s n).gpr = s.gpr := rfl
@[simp] theorem advance_eip (s : State) (n : Nat) : (advance s n).eip = s.eip + BitVec.ofNat 32 n := rfl
@[simp] theorem advance_eflags (s : State) (n : Nat) : (advance s n).eflags = s.eflags := rfl
@[simp] theorem advance_seg (s : State) (n : Nat) : (advance s n).seg = s.seg := rfl
@[simp] theorem advance_gdtr (s : State) (n : Nat) : (advance s n).gdtr = s.gdtr := rfl
@[simp] theorem advance_ldtr (s : State) (n : Nat) : (advance s n).ldtr = s.ldtr := rfl
@[simp] theorem advance_ldtrSel (s : State) (n : Nat) : (advance s n).ldtrSel = s.ldtrSel := rfl
@[simp] theorem advance_sldtDst (s : State) (n : Nat) : (advance s n).sldtDst = s.sldtDst := rfl
@[simp] theorem advance_mem (s : State) (n : Nat) : (advance s n).mem = s.mem := rfl
@[simp] theorem advance_prot (s : State) (n : Nat) : (advance s n).prot = s.prot := rfl
@[simp] theorem advance_free (s : State) (n : Nat) : (advance s n).free = s.free := rfl
@[simp] theorem advance_segReg (s : State) (n : Nat) (q : SegName) : (advance s n).segReg q = s.segReg q := rfl
@[simp] theorem advance_reg (s : State) (n : Nat) (q : Reg) : (advance s n).reg q = s.reg q := rfl

/-! ## freeZf -/

@[simp] theorem freeZf_gpr (s : State) : (freeZf s).gpr = s.gpr := rfl
@[simp] theorem freeZf_eip (s : State) : (freeZf s).eip = s.eip := rfl
@[simp] theorem freeZf_eflags (s : State) : (freeZf s).eflags = withZf s.eflags ((Config.freeWord s.free).getLsbD 0) := rfl
@[simp] theorem freeZf_seg (s : State) : (freeZf s).seg = s.seg := rfl
@[simp] theorem freeZf_gdtr (s : State) : (freeZf s).gdtr = s.gdtr := rfl
@[simp] theorem freeZf_ldtr (s : State) : (freeZf s).ldtr = s.ldtr := rfl
@[simp] theorem freeZf_ldtrSel (s : State) : (freeZf s).ldtrSel = s.ldtrSel := rfl
@[simp] theorem freeZf_sldtDst (s : State) : (freeZf s).sldtDst = s.sldtDst := rfl
@[simp] theorem freeZf_mem (s : State) : (freeZf s).mem = s.mem := rfl
@[simp] theorem freeZf_prot (s : State) : (freeZf s).prot = s.prot := rfl
@[simp] theorem freeZf_free (s : State) : (freeZf s).free = s.free + 1 := rfl
@[simp] theorem freeZf_segReg (s : State) (q : SegName) : (freeZf s).segReg q = s.segReg q := rfl
@[simp] theorem freeZf_reg (s : State) (q : Reg) : (freeZf s).reg q = s.reg q := rfl

/-! ## Results -/

@[simp] theorem ok_bind {α β : Type} (a : α) (f : α → Result β) : (Except.ok a >>= f) = f a := rfl

@[simp] theorem error_bind {α β : Type} (e : Stop) (f : α → Result β) :
    ((Except.error e : Result α) >>= f) = Except.error e := rfl

@[simp] theorem raise_bind {α β : Type} (x : Fault) (f : α → Result β) : ((raise x : Result α) >>= f) = raise x := rfl

@[simp] theorem refuse_bind {α β : Type} (x : Refusal) (f : α → Result β) :
    ((refuse x : Result α) >>= f) = refuse x := rfl

/-- A sequence answers a value exactly when its first part does and the rest does on that. -/
theorem bind_eq_ok {α β : Type} {x : Result α} {f : α → Result β} {b : β} :
    (x >>= f) = .ok b ↔ ∃ a, x = .ok a ∧ f a = .ok b := by
  cases x with
  | ok a => exact ⟨fun h => ⟨a, rfl, h⟩, fun ⟨_, h, h'⟩ => by cases h; exact h'⟩
  | error e => exact ⟨fun h => (nomatch h), fun ⟨_, h, _⟩ => (nomatch h)⟩

@[simp] theorem raise_ne_ok {α : Type} (f : Fault) (a : α) : ((raise f : Result α) = .ok a) = False :=
  eq_false (fun h => nomatch h)

@[simp] theorem refuse_ne_ok {α : Type} (r : Refusal) (a : α) : ((refuse r : Result α) = .ok a) = False :=
  eq_false (fun h => nomatch h)

/-- An instruction answers a next state exactly when its meaning's result is that state. -/
theorem finish_eq_next {x : Result State} {t : State} : finish x = .next t ↔ x = .ok t := by
  match x with
  | .ok a => exact ⟨fun h => by cases h; rfl, fun h => by cases h; rfl⟩
  | .error (.fault f) => exact ⟨fun h => (nomatch h), fun h => (nomatch h)⟩
  | .error (.refused r) => exact ⟨fun h => (nomatch h), fun h => (nomatch h)⟩

@[simp] theorem finish_ok (t : State) : finish (.ok t) = .next t := rfl

@[simp] theorem finish_raise (f : Fault) : finish (raise f) = .fault f := rfl

@[simp] theorem finish_refuse (r : Refusal) : finish (refuse r) = .refused r := rfl

end Sys2Proof.Machine
end

