-- ==== Sys2Proof/Laws/Ops.lean ====
section
/-! SUPPORT. One lemma per shared operation: when it answers, and what. Proofs about instructions cite these and do not
unfold the operations. -/

namespace Sys2Proof.Machine

/-! ## References -/

theorem judge_eq_ok {v : Verdict} {q : ProtQuery} {u : Unit} : judge v q = .ok u ↔ v = .pass := by
  cases v <;> simp [judge]

/-- `Translate` answers exactly when the reference is allowed, and then base plus offset. -/
theorem translate_eq_ok {s : State} {r : SegName} {off : Word} {n : Nat} {k : RefKind} {a : Word} :
    translate s r off n k = .ok a ↔ refOk s r off n k = true ∧ a = linear s r off := by
  simp only [translate, refOk, linear]
  cases hn : isNull (s.segReg r).sel with
  | true => simp
  | false =>
    by_cases hw : 2 ^ 32 < off.toNat + n
    · have hw' : ¬ off.toNat + n ≤ 2 ^ 32 := by omega
      simp only [Bool.false_eq_true, if_false, hw, if_true, refuse_ne_ok, Bool.not_false, Bool.true_and, hw',
        decide_false, Bool.false_and, false_and]
    · have hw' : off.toNat + n ≤ 2 ^ 32 := by omega
      simp only [Bool.false_eq_true, if_false, hw, bind_eq_ok, judge_eq_ok, Bool.not_false, Bool.true_and, hw',
        decide_true, beq_iff_eq, exists_and_left]
      constructor
      · rintro ⟨h, _, h'⟩
        cases h'
        exact ⟨h, rfl⟩
      · rintro ⟨h, rfl⟩
        exact ⟨h, (), rfl⟩

theorem refRead_eq_ok {s : State} {r : SegName} {off : Word} {n : Nat} {v : BitVec (8 * n)} :
    refRead s r off n = .ok v ↔ refOk s r off n .read = true ∧ v = memRead s.mem (linear s r off) n := by
  simp only [refRead, bind_eq_ok, translate_eq_ok]
  constructor
  · rintro ⟨a, ⟨h, rfl⟩, h'⟩
    cases h'
    exact ⟨h, rfl⟩
  · rintro ⟨h, rfl⟩
    exact ⟨_, ⟨h, rfl⟩, rfl⟩

theorem refWrite_eq_ok {s t : State} {r : SegName} {off : Word} {n : Nat} {v : BitVec (8 * n)} :
    refWrite s r off n v = .ok t ↔
      refOk s r off n .write = true ∧ t = s.setMem (memWrite s.mem (linear s r off) n v) := by
  simp only [refWrite, bind_eq_ok, translate_eq_ok]
  constructor
  · rintro ⟨a, ⟨h, rfl⟩, h'⟩
    cases h'
    exact ⟨h, rfl⟩
  · rintro ⟨h, rfl⟩
    exact ⟨_, ⟨h, rfl⟩, rfl⟩

/-! ## Descriptors and segment loads -/

theorem fetchDesc_eq_ok {s : State} {sel : Half} {d : Desc} :
    fetchDesc s sel = .ok d ↔ inTable (tableOf s sel) sel = true ∧ d = namedDesc s sel := by
  simp only [fetchDesc, namedDesc]
  split
  next h =>
    constructor
    · intro h'
      cases h'
      exact ⟨h, rfl⟩
    · rintro ⟨_, rfl⟩
      rfl
  next h => simp [h]

/-! ## Descriptors that are not present (R40; log 37) -/

theorem seenD4_present {d4 : Word} (h : descP d4 = true) : seenD4 d4 = d4 := by simp only [seenD4, h, if_true]

theorem seenD0_present {d0 d4 : Word} (h : descP d4 = true) : seenD0 d0 d4 = d0 := by simp only [seenD0, h, if_true]

/-- `D4[15:8]` is read whatever P is. -/
theorem seenD4_byte1 (d4 : Word) : (seenD4 d4).extractLsb' 8 8 = d4.extractLsb' 8 8 := by
  unfold seenD4
  split
  · rfl
  · apply BitVec.eq_of_getLsbD_eq
    intro j hj
    have mask : ∀ j : Fin 8, (0x0000FF00 : Word).getLsbD (8 + j) = true := by decide
    rw [BitVec.getLsbD_extractLsb', BitVec.getLsbD_extractLsb', BitVec.getLsbD_and, mask ⟨j, hj⟩, Bool.and_true]

/-- `D4[15:8]` of a not-present descriptor decides all that is read of it. -/
theorem seen_of_notPresent {d0 d4 e0 e4 : Word} (hp : descP d4 = false)
    (h : e4.extractLsb' 8 8 = d4.extractLsb' 8 8) :
    descP e4 = false ∧ descS e4 = descS d4 ∧ seenD0 e0 e4 = seenD0 d0 d4 ∧ seenD4 e4 = seenD4 d4 := by
  have bit : ∀ k, k < 8 → e4.getLsbD (8 + k) = d4.getLsbD (8 + k) := by
    intro k hk
    have := congrArg (fun b => b.getLsbD k) h
    simpa only [BitVec.getLsbD_extractLsb', hk, decide_true, Bool.true_and] using this
  have hp' : descP e4 = false := (bit 7 (by omega)).trans hp
  refine ⟨hp', bit 4 (by omega), ?_, ?_⟩
  · simp only [seenD0, hp, hp', Bool.false_eq_true, if_false]
  · simp only [seenD4, hp, hp', Bool.false_eq_true, if_false]
    apply BitVec.eq_of_getLsbD_eq
    intro j hj
    rw [BitVec.getLsbD_and, BitVec.getLsbD_and]
    by_cases hb : 8 ≤ j ∧ j < 16
    · have e := bit (j - 8) (by omega)
      rw [Nat.add_sub_cancel' hb.1] at e
      rw [e]
    · have mask : ∀ j : Fin 32, ¬ (8 ≤ j.val ∧ j.val < 16) → (0x0000FF00 : Word).getLsbD j = false := by decide
      rw [mask ⟨j, hj⟩ hb, Bool.and_false, Bool.and_false]

/-- So two descriptors that agree there pass the same checks, or stop in the same way. -/
theorem passChecks_of_notPresent {s t : State} {l : LoadTarget} {sel : Half} {d e : Desc} (hs : t.prot = s.prot)
    (hp : descP d.d4 = false) (h : e.d4.extractLsb' 8 8 = d.d4.extractLsb' 8 8) :
    passChecks t l sel e = passChecks s l sel d := by
  obtain ⟨hp', _, h0, h4⟩ := seen_of_notPresent (d0 := d.d0) (e0 := e.d0) hp h
  simp only [passChecks, ProtCheck.load, loadQuery, hs, hp, hp', h0, h4]

/-! ## Loads -/

theorem passChecks_eq_ok {s : State} {t : LoadTarget} {sel : Half} {d : Desc} {u : Unit} :
    passChecks s t sel d = .ok u ↔ s.prot.load t sel d.d0 d.d4 = .pass ∧ descP d.d4 = true := by
  simp only [passChecks, bind_eq_ok, judge_eq_ok, exists_and_left]
  constructor
  · rintro ⟨h, _, h'⟩
    refine ⟨h, ?_⟩
    split at h'
    · assumption
    · simp at h'
  · rintro ⟨h, h'⟩
    exact ⟨h, (), by simp [h']⟩

/-- `LoadSeg` answers in two ways only: a null selector into DS, ES, FS or GS, or a descriptor that passes every check. -/
theorem loadSeg_eq_ok {s t : State} {r : SegName} {sel : Half} :
    loadSeg s r sel = .ok t ↔
      (isNull sel = true ∧ r ≠ .cs ∧ r ≠ .ss ∧ t = loadNull s r sel) ∨
      (loadOk s r sel = true ∧ t = commitSeg s r sel (namedDesc s sel)) := by
  simp only [loadSeg, loadOk, names]
  cases hn : isNull sel with
  | true =>
    by_cases hr : r = .cs ∨ r = .ss
    · rcases hr with h | h <;> simp [h]
    · have h1 : r ≠ .cs := fun h => hr (.inl h)
      have h2 : r ≠ .ss := fun h => hr (.inr h)
      simp only [if_true, if_false, ne_eq, h1, h2, not_false_eq_true, true_and, Bool.not_true, Bool.false_and,
        Bool.false_eq_true, false_and, or_false]
      constructor
      · intro h
        cases h
        rfl
      · rintro rfl
        rfl
  | false =>
    simp only [Bool.false_eq_true, if_false, bind_eq_ok, fetchDesc_eq_ok, passChecks_eq_ok, false_and, Bool.not_false,
      Bool.true_and, false_or, Bool.and_eq_true, beq_iff_eq]
    constructor
    · rintro ⟨d, ⟨h1, rfl⟩, _, h2, h3⟩
      cases h3
      exact ⟨⟨⟨h1, h2.1⟩, h2.2⟩, rfl⟩
    · rintro ⟨⟨⟨h1, h2⟩, h3⟩, rfl⟩
      exact ⟨_, ⟨h1, rfl⟩, (), ⟨h2, h3⟩, rfl⟩

/-- A far transfer's load of CS answers only for a format 1 descriptor that passes every check. -/
theorem loadCsFar_eq_ok {s t : State} {sel : Half} :
    loadCsFar s sel = .ok t ↔
      loadOk s .cs sel = true ∧ descS (namedDesc s sel).d4 = true ∧ t = commitSeg s .cs sel (namedDesc s sel) := by
  simp only [loadCsFar]
  cases hn : isNull sel with
  | true =>
    simp only [if_true, loadSeg_eq_ok, ne_eq, not_true_eq_false, false_and, and_false, false_or]
    constructor
    · rintro ⟨h, _⟩
      simp [loadOk, names, hn] at h
    · rintro ⟨h, _⟩
      simp [loadOk, names, hn] at h
  | false =>
    simp only [Bool.false_eq_true, if_false, bind_eq_ok, fetchDesc_eq_ok]
    constructor
    · rintro ⟨d, ⟨_, rfl⟩, h⟩
      split at h
      next hs =>
        rw [loadSeg_eq_ok] at h
        rcases h with ⟨h, _⟩ | ⟨h, h'⟩
        · simp [hn] at h
        · exact ⟨h, hs, h'⟩
      next => simp at h
    · rintro ⟨h, hs, rfl⟩
      have hi : inTable (tableOf s sel) sel = true := by
        simp only [loadOk, names, Bool.and_eq_true] at h
        exact h.1.1.2
      refine ⟨_, ⟨hi, rfl⟩, ?_⟩
      simp only [hs, if_true]
      exact loadSeg_eq_ok.mpr (.inr ⟨h, rfl⟩)

/-- LLDT's load answers for a null selector, or for a GDT descriptor that passes every check. -/
theorem loadLdtr_eq_ok {s t : State} {sel : Half} :
    loadLdtr s sel = .ok t ↔
      (isNull (tiCleared sel) = true ∧ t = { ldtrNone s with ldtrSel := sel }) ∨
      (lldtOk s sel = true ∧
        t = { setLdtr s (descBase (descAt s.mem (entryAddr s.gdtr sel)).d0 (descAt s.mem (entryAddr s.gdtr sel)).d4)
                (dtrLimitOf (descEffLimit (descAt s.mem (entryAddr s.gdtr sel)).d0
                  (descAt s.mem (entryAddr s.gdtr sel)).d4)) with ldtrSel := sel }) := by
  simp only [loadLdtr, lldtOk]
  cases hn : isNull (tiCleared sel) with
  | true =>
    simp only [if_true, true_and, Bool.not_true, Bool.false_and, Bool.false_eq_true, false_and, or_false]
    constructor
    · intro h
      cases h
      rfl
    · rintro rfl
      rfl
  | false =>
    simp only [Bool.false_eq_true, if_false, false_and, Bool.not_false, Bool.true_and, false_or, Bool.and_eq_true,
      beq_iff_eq]
    cases hi : inTable s.gdtr sel with
    | false => simp
    | true =>
      simp only [if_true, bind_eq_ok, passChecks_eq_ok, true_and]
      constructor
      · rintro ⟨_, h, h'⟩
        cases h'
        exact ⟨h, rfl⟩
      · rintro ⟨h, rfl⟩
        exact ⟨(), h, rfl⟩

/-- The selector test answers exactly under R80's `require` lines, with the accessed bit set. -/
theorem selTest_eq_ok {s t : State} {sel : Half} :
    selTest s sel = .ok t ↔ selTestOk s sel = true ∧ t = s.setMem (setAccessed s.mem (namedDesc s sel)) := by
  simp only [selTest, selTestOk, names, namedDesc]
  cases isNull sel <;> cases inTable (tableOf s sel) sel <;> cases descP (descAt s.mem (descAddr s sel)).d4 <;>
    cases descS (descAt s.mem (descAddr s sel)).d4 <;> simp
  exact ⟨fun h => by cases h; rfl, fun h => by rw [h]⟩

/-! ## Operands -/

theorem readRM16_eq_ok {s : State} {p : Prefixes} {rm : RM} {v : Half} :
    readRM16 s p rm = .ok v ↔ rmOk s p rm = true ∧ v = rmVal s p rm := by
  cases rm with
  | reg r => exact ⟨fun h => by cases h; exact ⟨rfl, rfl⟩, fun ⟨_, h⟩ => by rw [h]; rfl⟩
  | mem m => exact refRead_eq_ok

theorem writeRM16_reg (s : State) (p : Prefixes) (r : Reg) (v : Half) :
    writeRM16 s p (.reg r) v = .ok (s.setReg r (lowHalf (s.reg r) v)) := rfl

theorem writeRM16_mem_eq_ok {s t : State} {p : Prefixes} {m : MemOp} {v : Half} :
    writeRM16 s p (.mem m) v = .ok t ↔
      memOk s p m 2 .write = true ∧ t = s.setMem (memWrite s.mem (memAddr s p m) 2 v) := refWrite_eq_ok

/-- A part of a value read is the value read at that part's address. -/
theorem memRead_part {m : Memory} {a : Word} {n k c : Nat} (h : c + k ≤ n) :
    (memRead m a n).extractLsb' (8 * c) (8 * k) = memRead m (a + BitVec.ofNat 32 c) k := by
  apply eq_of_bytes
  intro i hi
  rw [memRead_byte hi]
  have e : a + BitVec.ofNat 32 c + BitVec.ofNat 32 i = a + BitVec.ofNat 32 (c + i) := by
    apply BitVec.eq_of_toNat_eq
    simp [BitVec.toNat_add, BitVec.toNat_ofNat]
    omega
  rw [e, ← memRead_byte (n := n) (by omega)]
  apply BitVec.eq_of_getLsbD_eq
  intro j hj
  have : 8 * i + j < 8 * k := by omega
  simp only [BitVec.getLsbD_extractLsb', hj, decide_true, Bool.true_and, this]
  congr 1
  omega

theorem readFar_eq_ok {s : State} {p : Prefixes} {m : MemOp} {o : Word} {sel : Half} :
    readFar s p m = .ok (o, sel) ↔
      memOk s p m (farSize p.op16) .read = true ∧ o = farOff s p m ∧ sel = farSel s p m := by
  unfold readFar farOff farSel farSize memOk readMem
  cases p.op16 with
  | true =>
    simp only [if_true, bind_eq_ok, refRead_eq_ok]
    have h0 := memRead_part (m := s.mem) (a := memAddr s p m) (n := 4) (k := 2) (c := 0) (by omega)
    have h2 := memRead_part (m := s.mem) (a := memAddr s p m) (n := 4) (k := 2) (c := 2) (by omega)
    simp only [BitVec.add_zero, Nat.mul_zero] at h0 h2
    constructor
    · rintro ⟨v, ⟨h, rfl⟩, h'⟩
      cases h'
      exact ⟨h, congrArg (BitVec.setWidth 32) h0, h2⟩
    · rintro ⟨h, rfl, rfl⟩
      exact ⟨_, ⟨h, rfl⟩, congrArg Except.ok (Prod.ext (congrArg (BitVec.setWidth 32) h0) h2)⟩
  | false =>
    simp only [Bool.false_eq_true, if_false, bind_eq_ok, refRead_eq_ok]
    have h0 := memRead_part (m := s.mem) (a := memAddr s p m) (n := 6) (k := 4) (c := 0) (by omega)
    have h2 := memRead_part (m := s.mem) (a := memAddr s p m) (n := 6) (k := 2) (c := 4) (by omega)
    simp only [BitVec.add_zero, Nat.mul_zero] at h0 h2
    constructor
    · rintro ⟨v, ⟨h, rfl⟩, h'⟩
      cases h'
      exact ⟨h, h0, h2⟩
    · rintro ⟨h, rfl, rfl⟩
      exact ⟨_, ⟨h, rfl⟩, congrArg Except.ok (Prod.ext h0 h2)⟩

theorem readTable_eq_ok {s : State} {p : Prefixes} {m : MemOp} {t : TableReg} :
    readTable s p m = .ok t ↔
      memOk s p m 6 .read = true ∧
        t = ⟨memRead s.mem (memAddr s p m + 2) 4, memRead s.mem (memAddr s p m) 2⟩ := by
  unfold readTable memOk readMem
  simp only [bind_eq_ok, refRead_eq_ok]
  have h0 := memRead_part (m := s.mem) (a := memAddr s p m) (n := 6) (k := 2) (c := 0) (by omega)
  have h2 := memRead_part (m := s.mem) (a := memAddr s p m) (n := 6) (k := 4) (c := 2) (by omega)
  simp only [BitVec.add_zero, Nat.mul_zero] at h0 h2
  constructor
  · rintro ⟨v, ⟨h, rfl⟩, h'⟩
    cases h'
    exact ⟨h, congr (congrArg TableReg.mk h2) h0⟩
  · rintro ⟨h, rfl⟩
    exact ⟨_, ⟨h, rfl⟩, congrArg Except.ok (congr (congrArg TableReg.mk h2) h0)⟩

theorem writeTable_eq_ok {s t : State} {p : Prefixes} {m : MemOp} {v : TableReg} :
    writeTable s p m v = .ok t ↔
      memOk s p m 6 .write = true ∧ t = s.setMem (memWrite s.mem (memAddr s p m) 6 (v.base ++ v.limit)) :=
  refWrite_eq_ok

/-! ## The stack -/

theorem topSel_eq_ok {s : State} {op16 : Bool} {sel : Half} :
    topSel s op16 = .ok sel ↔ stackOk s op16 = true ∧ sel = stackSel s := by
  simp only [topSel, bind_eq_ok, refRead_eq_ok, stackOk, stackSel]
  have h : (memRead s.mem (linear s .ss (s.reg .esp)) (itemSize op16)).setWidth 16 =
      memRead s.mem (linear s .ss (s.reg .esp)) 2 := by
    cases op16 with
    | true => exact BitVec.setWidth_eq _
    | false =>
      have h0 := memRead_part (m := s.mem) (a := linear s .ss (s.reg .esp)) (n := 4) (k := 2) (c := 0) (by omega)
      simp only [BitVec.add_zero, Nat.mul_zero] at h0
      rw [← h0]
      apply BitVec.eq_of_getLsbD_eq
      intro j hj
      simp [itemSize, hj]
  constructor
  · rintro ⟨v, ⟨h1, rfl⟩, h'⟩
    cases h'
    exact ⟨h1, h⟩
  · rintro ⟨h1, rfl⟩
    exact ⟨_, ⟨h1, rfl⟩, by rw [h]⟩

/-- Where the next push puts an item. -/
theorem push_eq_ok {s t : State} {op16 : Bool} {v : BitVec (8 * itemSize op16)} :
    push s op16 v = .ok t ↔
      refOk s .ss (s.reg .esp - BitVec.ofNat 32 (itemSize op16)) (itemSize op16) .write = true ∧
        t = (s.setMem (memWrite s.mem (linear s .ss (s.reg .esp - BitVec.ofNat 32 (itemSize op16)))
          (itemSize op16) v)).setReg .esp (s.reg .esp - BitVec.ofNat 32 (itemSize op16)) := by
  simp only [push, bind_eq_ok, refWrite_eq_ok]
  constructor
  · rintro ⟨a, ⟨h, rfl⟩, h'⟩
    cases h'
    exact ⟨h, rfl⟩
  · rintro ⟨h, rfl⟩
    exact ⟨_, ⟨h, rfl⟩, rfl⟩

theorem pushOff_eq_ok {s t : State} {op16 : Bool} {v : Word} :
    pushOff s op16 v = .ok t ↔
      refOk s .ss (s.reg .esp - BitVec.ofNat 32 (itemSize op16)) (itemSize op16) .write = true ∧
        t = (s.setMem (memWrite s.mem (linear s .ss (s.reg .esp - BitVec.ofNat 32 (itemSize op16)))
          (itemSize op16) (v.setWidth _))).setReg .esp (s.reg .esp - BitVec.ofNat 32 (itemSize op16)) := push_eq_ok

/-- The item a pushed selector makes: its low half is the selector, the upper half of a 32-bit item a free value. -/
def selItem (s : State) (op16 : Bool) (sel : Half) : BitVec (8 * itemSize op16) :=
  if op16 then sel.setWidth _ else (lowHalf (Config.freeWord s.free) sel).setWidth _

theorem selItem_low (s : State) (op16 : Bool) (sel : Half) : (selItem s op16 sel).setWidth 16 = sel := by
  cases op16 with
  | true => simp [selItem, itemSize]
  | false =>
    apply BitVec.eq_of_getLsbD_eq
    intro j hj
    have h32 : j < 32 := by omega
    have : (lowHalf (Config.freeWord s.free) sel).getLsbD j = sel.getLsbD j := by
      simp only [lowHalf, BitVec.getLsbD_append, hj, if_true]
    simpa [selItem, itemSize, hj, h32] using this

theorem pushSel_eq_ok {s t : State} {op16 : Bool} {sel : Half} :
    pushSel s op16 sel = .ok t ↔
      refOk s .ss (s.reg .esp - BitVec.ofNat 32 (itemSize op16)) (itemSize op16) .write = true ∧
        t = { (s.setMem (memWrite s.mem (linear s .ss (s.reg .esp - BitVec.ofNat 32 (itemSize op16)))
          (itemSize op16) (selItem s op16 sel))).setReg .esp (s.reg .esp - BitVec.ofNat 32 (itemSize op16)) with
            free := if op16 then s.free else s.free + 1 } := by
  cases op16 with
  | true => exact push_eq_ok
  | false => exact push_eq_ok (s := (draw s).2)

theorem popSeg_eq_ok {s t : State} {op16 : Bool} {r : SegName} :
    popSeg s op16 r = .ok t ↔
      stackOk s op16 = true ∧ ∃ u, loadSeg s r (stackSel s) = .ok u ∧
        t = u.setReg .esp (s.reg .esp + BitVec.ofNat 32 (itemSize op16)) := by
  simp only [popSeg, bind_eq_ok, topSel_eq_ok]
  constructor
  · rintro ⟨_, ⟨h, rfl⟩, u, hu, h'⟩
    cases h'
    exact ⟨h, u, hu, rfl⟩
  · rintro ⟨h, u, hu, rfl⟩
    exact ⟨_, ⟨h, rfl⟩, u, hu, rfl⟩

/-! ## Whole effects -/

theorem loadPointer_eq_ok {s t : State} {p : Prefixes} {r : SegName} {g : Reg} {m : MemOp} :
    loadPointer s p r g m = .ok t ↔
      memOk s p m (farSize p.op16) .read = true ∧ ∃ u, loadSeg s r (farSel s p m) = .ok u ∧
        t = u.setRegSized p.op16 g (farOff s p m) := by
  simp only [loadPointer, bind_eq_ok, Prod.exists, readFar_eq_ok]
  constructor
  · rintro ⟨_, _, ⟨h, rfl, rfl⟩, u, hu, h'⟩
    cases h'
    exact ⟨h, u, hu, rfl⟩
  · rintro ⟨h, u, hu, rfl⟩
    exact ⟨_, _, ⟨h, rfl, rfl⟩, u, hu, rfl⟩

theorem jmpFar_eq_ok {s t : State} {sel : Half} {off : Word} :
    jmpFar s sel off = .ok t ↔
      loadOk s .cs sel = true ∧ descS (namedDesc s sel).d4 = true ∧
        t = (commitSeg s .cs sel (namedDesc s sel)).setEip off := by
  simp only [jmpFar, bind_eq_ok, loadCsFar_eq_ok]
  constructor
  · rintro ⟨_, ⟨h, h2, rfl⟩, h'⟩
    cases h'
    exact ⟨h, h2, rfl⟩
  · rintro ⟨h, h2, rfl⟩
    exact ⟨_, ⟨h, h2, rfl⟩, rfl⟩

theorem callFar_eq_ok {s t : State} {op16 : Bool} {sel : Half} {off : Word} :
    callFar s op16 sel off = .ok t ↔
      ∃ u v w, loadCsFar s sel = .ok u ∧ pushSel u op16 (s.segReg .cs).sel = .ok v ∧
        pushOff v op16 s.eip = .ok w ∧ t = w.setEip off := by
  simp only [callFar, bind_eq_ok]
  constructor
  · rintro ⟨u, hu, v, hv, w, hw, h⟩
    cases h
    exact ⟨u, v, w, hu, hv, hw, rfl⟩
  · rintro ⟨u, v, w, hu, hv, hw, rfl⟩
    exact ⟨u, hu, v, hv, w, hw, rfl⟩

theorem testOperand_eq_ok {s t : State} {p : Prefixes} {rm : RM} :
    testOperand s p rm = .ok t ↔
      rmOk s p rm = true ∧ selTestOk s (rmVal s p rm) = true ∧
        t = freeZf (s.setMem (setAccessed s.mem (namedDesc s (rmVal s p rm)))) := by
  simp only [testOperand, bind_eq_ok, readRM16_eq_ok, selTest_eq_ok]
  constructor
  · rintro ⟨_, ⟨h, rfl⟩, _, ⟨h2, rfl⟩, h'⟩
    cases h'
    exact ⟨h, h2, rfl⟩
  · rintro ⟨h, h2, rfl⟩
    exact ⟨_, ⟨h, rfl⟩, _, ⟨h2, rfl⟩, rfl⟩

/-! ## Fetching -/

/-- A step that fetches an instruction executes it, EIP moved past it. -/
theorem step_of_fetch {s : State} {i : Instr} {n : Nat} (h : fetch s = .ok (i, n)) : step s = exec i (advance s n) := by
  simp only [step, runNext, h]

theorem fetch_eq_ok {s : State} {i : Instr} {n : Nat} :
    fetch s = .ok (i, n) ↔
      isNull (s.segReg .cs).sel = false ∧ ∃ rest, decode (fetchWindow s) = .ok (i, rest) ∧
        n = Config.maxInstrBytes - rest.length ∧ refOk s .cs s.eip n .execute = true := by
  simp only [fetch]
  cases hn : isNull (s.segReg .cs).sel with
  | true => simp
  | false =>
    simp only [Bool.false_eq_true, if_false, true_and]
    split
    next e he => simp [he]
    next i' rest he =>
      simp only [bind_eq_ok, translate_eq_ok]
      constructor
      · rintro ⟨_, ⟨h, _⟩, h'⟩
        cases h'
        exact ⟨rest, he, rfl, h⟩
      · rintro ⟨rest', h1, rfl, h⟩
        rw [he] at h1
        cases h1
        exact ⟨_, ⟨h, rfl⟩, rfl⟩

end Sys2Proof.Machine
end

