-- ==== Sys2Proof/Laws/Effects.lean ====
section
/-! SUPPORT. What the shared operations do to the state: the effect of a load from a descriptor and of a null load, what
each operation keeps, and the hidden part a descriptor gives. -/

namespace Sys2Proof.Machine

/-! ## Descriptors in memory -/

/-- `D4[15:8]` is the byte at `d + 5` (R46). -/
theorem descAt_byte5 (m : Memory) (a : Word) : (descAt m a).d4.extractLsb' 8 8 = m.read (a + 5).toNat := by
  have h := memRead_byte (m := m) (a := a + 4) (n := 4) (i := 1) (by omega)
  have e : a + 4 + BitVec.ofNat 32 1 = a + 5 := by
    apply BitVec.eq_of_toNat_eq
    simp [BitVec.toNat_add]
  rw [e] at h
  exact h

/-- Setting the accessed bit changes one byte at most, and sets one bit of it (R49). -/
theorem accessedSet_setAccessed (m : Memory) (a : Word) : AccessedSet m (setAccessed m (descAt m a)) (descAt m a) := by
  intro x
  have hb : (descAt m a).d4.extractLsb' 8 8 = m.read ((descAt m a).addr + 5).toNat := descAt_byte5 m a
  have nz : m.read ((descAt m a).addr + 5).toNat ||| 1 ≠ Memory.unlisted := by
    intro h
    have := congrArg (fun b => b.getLsbD 0) h
    simp [Memory.unlisted] at this
  simp only [setAccessed, hb]
  cases hs : descS (descAt m a).d4 <;> cases ha : descA (descAt m a).d4 <;>
    simp only [Bool.not_false, Bool.not_true, Bool.and_true, Bool.and_false, Bool.false_eq_true, if_false, if_true,
      false_and, not_true_eq_false, and_false, not_false_eq_true, true_and]
  split
  next h => rw [h, Memory.read_write_nonzero nz]
  next h => rw [Memory.read_write_ne h]

theorem setAccessed_wf {m : Memory} {d : Desc} (h : m.wf = true) : (setAccessed m d).wf = true := by
  unfold setAccessed
  split
  · exact Memory.wf_write _ _ h
  · exact h

/-! ## Loads -/

theorem segLoaded_commitSeg (s : State) (r : SegName) (sel : Half) :
    SegLoaded s (commitSeg s r sel (namedDesc s sel)) r sel :=
  ⟨⟨segReg_setSeg_same _ _ _, fun _ h => segReg_setSeg_ne _ _ h⟩, accessedSet_setAccessed _ _,
    ⟨rfl, rfl, rfl, rfl, rfl⟩, rfl, rfl⟩

theorem commitSeg_gpr (s : State) (r : SegName) (sel : Half) (d : Desc) : (commitSeg s r sel d).gpr = s.gpr := rfl

theorem commitSeg_eip (s : State) (r : SegName) (sel : Half) (d : Desc) : (commitSeg s r sel d).eip = s.eip := rfl

theorem nullLoaded_loadNull (s : State) (r : SegName) (sel : Half) : NullLoaded s (loadNull s r sel) r sel :=
  ⟨by simp [loadNull], fun _ h => segReg_setSeg_ne _ _ h, rfl, ⟨rfl, rfl, rfl, rfl, rfl⟩, rfl⟩

theorem loadNull_gpr (s : State) (r : SegName) (sel : Half) : (loadNull s r sel).gpr = s.gpr := rfl

theorem loadNull_eip (s : State) (r : SegName) (sel : Half) : (loadNull s r sel).eip = s.eip := rfl

/-- A selector that is null fails `loadOk`. -/
theorem not_null_of_loadOk {s : State} {r : SegName} {sel : Half} (h : loadOk s r sel = true) : isNull sel = false := by
  simp only [loadOk, names, Bool.and_eq_true, Bool.not_eq_true'] at h
  exact h.1.1.1

theorem present_of_loadOk {s : State} {r : SegName} {sel : Half} (h : loadOk s r sel = true) :
    descP (namedDesc s sel).d4 = true := by
  simp only [loadOk, Bool.and_eq_true] at h
  exact h.2

/-- What every load of a segment register keeps and gives. -/
theorem loadSeg_keeps {s t : State} {r : SegName} {sel : Half} (h : loadSeg s r sel = .ok t) :
    (t.segReg r).sel = sel ∧ (∀ q, q ≠ r → t.segReg q = s.segReg q) ∧ SameTables s t ∧ t.eflags = s.eflags ∧
      t.gpr = s.gpr ∧ t.eip = s.eip := by
  rcases loadSeg_eq_ok.mp h with ⟨_, _, _, rfl⟩ | ⟨_, rfl⟩
  · have n := nullLoaded_loadNull s r sel
    exact ⟨n.1, n.2.1, n.2.2.2.1, n.2.2.2.2, rfl, rfl⟩
  · have n := segLoaded_commitSeg s r sel
    exact ⟨congrArg SegReg.sel n.1.1, n.1.2, n.2.2.1, n.2.2.2.1, rfl, rfl⟩

theorem loadSeg_wf {s t : State} {r : SegName} {sel : Half} (h : loadSeg s r sel = .ok t) (w : s.mem.wf = true) :
    t.mem.wf = true := by
  rcases loadSeg_eq_ok.mp h with ⟨_, _, _, rfl⟩ | ⟨_, rfl⟩
  · exact w
  · exact setAccessed_wf w

/-! ## The hidden part a descriptor gives -/

theorem descAttrs_bit (d4 : Word) (j : Nat) :
    (descAttrs d4).getLsbD j = if j < 8 then d4.getLsbD (8 + j) else decide (j < 12) && d4.getLsbD (12 + j) := by
  simp only [descAttrs, BitVec.getLsbD_append, BitVec.getLsbD_extractLsb']
  split
  next h => simp [h]
  next h =>
    by_cases hj : j < 12
    · have h1 : j - 8 < 4 := by omega
      have h2 : 20 + (j - 8) = 12 + j := by omega
      simp [hj, h1, h2]
    · have h1 : ¬ j - 8 < 4 := by omega
      simp [hj, h1]

theorem loadedAttrs_bit (d4 : Word) (j : Nat) (h : 0 < j) : (loadedAttrs d4).getLsbD j = (descAttrs d4).getLsbD j := by
  unfold loadedAttrs
  split
  · have : (1 : BitVec 12).getLsbD j = false := by
      simp
      omega
    simp only [BitVec.getLsbD_or, this, Bool.or_false]
  · rfl

/-- With G set, the limit's low 12 bits are ones (R32). -/
theorem effLimit_low {d0 d4 : Word} (hg : descG d4 = true) : (descEffLimit d0 d4).extractLsb' 0 12 = 0xFFF#12 := by
  rw [descEffLimit, if_pos hg]
  apply BitVec.eq_of_getLsbD_eq
  intro j hj
  rw [BitVec.getLsbD_extractLsb', Nat.zero_add, BitVec.getLsbD_append, if_pos hj]
  simp [hj]

/-- With G clear, the limit is below 1 megabyte (R32). -/
theorem effLimit_small {d0 d4 : Word} (hg : descG d4 = false) : (descEffLimit d0 d4).toNat < 2 ^ 20 := by
  have := (descLimit20 d0 d4).isLt
  simp only [descEffLimit, hg, Bool.false_eq_true, if_false, BitVec.toNat_setWidth]
  omega

/-- A present descriptor gives a filled hidden part (R70 step 7, R32). -/
theorem hiddenOf_filled {d0 d4 : Word} (hp : descP d4 = true) : Hidden.filled (hiddenOf d0 d4) = true := by
  have h7 : (loadedAttrs d4).getLsbD 7 = true := by rw [loadedAttrs_bit _ _ (by omega), descAttrs_bit]; exact hp
  have h4 : (loadedAttrs d4).getLsbD 4 = descS d4 := by rw [loadedAttrs_bit _ _ (by omega), descAttrs_bit]; rfl
  have h11 : (loadedAttrs d4).getLsbD 11 = descG d4 := by
    rw [loadedAttrs_bit _ _ (by omega), descAttrs_bit]; simp [descG]
  have h0 : descS d4 = true → (loadedAttrs d4).getLsbD 0 = true := by
    intro h
    simp [loadedAttrs, h]
  simp only [Hidden.filled, hiddenOf, h7, h4, h11, Bool.true_and, Bool.and_eq_true]
  constructor
  · cases hs : descS d4 with
    | true => simpa using h0 hs
    | false => rfl
  · by_cases hg : descG d4 = true
    · rw [if_pos hg, beq_iff_eq]
      exact effLimit_low hg
    · rw [if_neg hg]
      exact decide_eq_true (effLimit_small (by simpa using hg))

/-! ## Writes and pushes -/

theorem push_keeps {s t : State} {op16 : Bool} {v : BitVec (8 * itemSize op16)} (h : push s op16 v = .ok t) :
    t.seg = s.seg ∧ SameTables s t ∧ t.eflags = s.eflags ∧ t.eip = s.eip ∧ (s.mem.wf = true → t.mem.wf = true) := by
  obtain ⟨_, rfl⟩ := push_eq_ok.mp h
  exact ⟨rfl, ⟨rfl, rfl, rfl, rfl, rfl⟩, rfl, rfl, fun w => memWrite_wf w⟩

theorem pushSel_keeps {s t : State} {op16 : Bool} {sel : Half} (h : pushSel s op16 sel = .ok t) :
    t.seg = s.seg ∧ SameTables s t ∧ t.eflags = s.eflags ∧ t.eip = s.eip ∧ (s.mem.wf = true → t.mem.wf = true) := by
  obtain ⟨_, rfl⟩ := pushSel_eq_ok.mp h
  exact ⟨rfl, ⟨rfl, rfl, rfl, rfl, rfl⟩, rfl, rfl, fun w => memWrite_wf w⟩

theorem writeRM16_keeps {s t : State} {p : Prefixes} {rm : RM} {v : Half} (h : writeRM16 s p rm v = .ok t) :
    t.seg = s.seg ∧ SameTables s t ∧ t.eflags = s.eflags ∧ t.eip = s.eip ∧ (s.mem.wf = true → t.mem.wf = true) := by
  cases rm with
  | reg r =>
    rw [writeRM16_reg] at h
    cases h
    exact ⟨rfl, ⟨rfl, rfl, rfl, rfl, rfl⟩, rfl, rfl, id⟩
  | mem m =>
    obtain ⟨_, rfl⟩ := writeRM16_mem_eq_ok.mp h
    exact ⟨rfl, ⟨rfl, rfl, rfl, rfl, rfl⟩, rfl, rfl, fun w => memWrite_wf w⟩

/-- EFLAGS with ZF replaced keeps its other bits. -/
theorem withZf_other (f : Word) (z : Bool) : withZf f z &&& ~~~(0x40 : Word) = f &&& ~~~(0x40 : Word) := by
  apply BitVec.eq_of_getLsbD_eq
  intro j hj
  unfold withZf
  by_cases h : j = 6
  · subst h
    simp
  · have h40 : (0x40 : Word).getLsbD j = false := by
      have all : ∀ j : Fin 32, j.val ≠ 6 → (0x40 : Word).getLsbD j.val = false := by decide
      exact all ⟨j, hj⟩ h
    simp only [BitVec.getLsbD_and, BitVec.getLsbD_or, BitVec.getLsbD_not, hj, decide_true, Bool.true_and]
    have h00 : (0 : Word).getLsbD j = false := BitVec.getLsbD_zero
    cases z <;> simp only [Bool.false_eq_true, if_false, if_true, h40, h00, Bool.or_false, Bool.not_false, Bool.and_true]

end Sys2Proof.Machine
end

