-- ==== Sys2Proof/Laws/PerInstr.lean ====
section
/-! SUPPORT. Statements about every instruction as syntax, one lemma per constructor. -/

namespace Sys2Proof

theorem encodeLeading_length (p : Prefixes) : (encodeLeading p).length ≤ 3 := by
  obtain ⟨o, a, s⟩ := p
  cases s <;> cases o <;> cases a <;> simp [encodeLeading]

theorem encodeModRM_length (g : BitVec 3) (rm : RM) :
    0 < (encodeModRM g rm).length ∧ (encodeModRM g rm).length ≤ 6 := by
  cases rm with
  | reg r => simp [encodeModRM]
  | mem m =>
    cases m with
    | base b d => cases d <;> simp [encodeModRM, Disp.bytes, bytes32]
    | abs a => simp [encodeModRM, bytes32]
    | sib b x sc d => cases d <;> simp [encodeModRM, Disp.bytes, bytes32]
    | sibAbs x sc a => simp [encodeModRM, bytes32]
    | base16 f d => cases d <;> simp [encodeModRM, Disp16.bytes, bytes16]
    | abs16 a => simp [encodeModRM, bytes16]

theorem encodeFar_length (p : Prefixes) (off : Word) (sel : Half) : (encodeFar p off sel).length ≤ 6 := by
  unfold encodeFar
  split <;> simp [bytes16, bytes32]

/-- A body of 1 to 8 bytes gives an instruction of 1 to 11. -/
theorem encode_length_of_body {i : Instr} (h : 0 < (encodeBody i).length) (h' : (encodeBody i).length ≤ 8) :
    0 < (encode i).length ∧ (encode i).length ≤ 11 := by
  have := encodeLeading_length i.leading
  simp only [encode, List.length_append]
  omega

end Sys2Proof

namespace Sys2Proof.Laws.EncodeLength

/-- An instruction's encoding has 1 to 11 bytes, within the 15 that a fetch reads (log 4). -/
def Statement (i : Instr) : Prop := 0 < (encode i).length ∧ (encode i).length ≤ 11

/-- A body that is one or two opcode bytes and ModR/M. -/
theorem of_modRM {i : Instr} (op : List Byte) (g : BitVec 3) (rm : RM) (h : encodeBody i = op ++ encodeModRM g rm)
    (l : op.length ≤ 2) : Statement i := by
  have := encodeModRM_length g rm
  apply encode_length_of_body <;> rw [h, List.length_append] <;> omega

/-- A body that is one opcode byte and a far pointer. -/
theorem of_far {i : Instr} (op : Byte) (p : Prefixes) (off : Word) (sel : Half)
    (h : encodeBody i = [op] ++ encodeFar p off sel) : Statement i := by
  have := encodeFar_length p off sel
  apply encode_length_of_body <;> rw [h, List.length_append] <;> simp only [List.length_singleton] <;> omega

/-- A body that is opcode bytes only. -/
theorem of_opcode {i : Instr} (op : List Byte) (h : encodeBody i = op) (l : 0 < op.length) (l' : op.length ≤ 2) :
    Statement i := by
  subst h
  exact encode_length_of_body l (by omega)

theorem lgdt (p : Prefixes) (m : MemOp) : Statement (.lgdt p m) :=
  of_modRM _ 2 (.mem m) rfl (by decide)

theorem sgdt (p : Prefixes) (m : MemOp) : Statement (.sgdt p m) :=
  of_modRM _ 0 (.mem m) rfl (by decide)

theorem lldt (p : Prefixes) (rm : RM) : Statement (.lldt p rm) :=
  of_modRM _ 2 rm rfl (by decide)

theorem sldt (p : Prefixes) (rm : RM) : Statement (.sldt p rm) :=
  of_modRM _ 0 rm rfl (by decide)

theorem movToSreg (p : Prefixes) (s : SegName) (rm : RM) : Statement (.movToSreg p s rm) :=
  of_modRM _ s.code rm rfl (by decide)

theorem popEs (p : Prefixes) : Statement (.popEs p) :=
  of_opcode (Opcode.pop .es).bytes rfl (by decide) (by decide)

theorem popSs (p : Prefixes) : Statement (.popSs p) :=
  of_opcode (Opcode.pop .ss).bytes rfl (by decide) (by decide)

theorem popDs (p : Prefixes) : Statement (.popDs p) :=
  of_opcode (Opcode.pop .ds).bytes rfl (by decide) (by decide)

theorem popFs (p : Prefixes) : Statement (.popFs p) :=
  of_opcode (Opcode.pop .fs).bytes rfl (by decide) (by decide)

theorem popGs (p : Prefixes) : Statement (.popGs p) :=
  of_opcode (Opcode.pop .gs).bytes rfl (by decide) (by decide)

theorem lds (p : Prefixes) (g : Reg) (m : MemOp) : Statement (.lds p g m) :=
  of_modRM _ g.code (.mem m) rfl (by decide)

theorem lss (p : Prefixes) (g : Reg) (m : MemOp) : Statement (.lss p g m) :=
  of_modRM _ g.code (.mem m) rfl (by decide)

theorem lgs (p : Prefixes) (g : Reg) (m : MemOp) : Statement (.lgs p g m) :=
  of_modRM _ g.code (.mem m) rfl (by decide)

theorem lfs (p : Prefixes) (g : Reg) (m : MemOp) : Statement (.lfs p g m) :=
  of_modRM _ g.code (.mem m) rfl (by decide)

theorem callPtr (p : Prefixes) (off : Word) (sel : Half) : Statement (.callPtr p off sel) :=
  of_far _ p off sel rfl

theorem callMem (p : Prefixes) (m : MemOp) : Statement (.callMem p m) :=
  of_modRM _ 3 (.mem m) rfl (by decide)

theorem jmpPtr (p : Prefixes) (off : Word) (sel : Half) : Statement (.jmpPtr p off sel) :=
  of_far _ p off sel rfl

theorem jmpMem (p : Prefixes) (m : MemOp) : Statement (.jmpMem p m) :=
  of_modRM _ 5 (.mem m) rfl (by decide)

theorem lar (p : Prefixes) (g : Reg) (rm : RM) : Statement (.lar p g rm) :=
  of_modRM _ g.code rm rfl (by decide)

theorem lsl (p : Prefixes) (g : Reg) (rm : RM) : Statement (.lsl p g rm) :=
  of_modRM _ g.code rm rfl (by decide)

theorem verr (p : Prefixes) (rm : RM) : Statement (.verr p rm) :=
  of_modRM _ 4 rm rfl (by decide)

theorem verw (p : Prefixes) (rm : RM) : Statement (.verw p rm) :=
  of_modRM _ 5 rm rfl (by decide)

theorem movFromSreg (p : Prefixes) (s : SegName) (rm : RM) : Statement (.movFromSreg p s rm) :=
  of_modRM _ s.code rm rfl (by decide)

theorem pushEs (p : Prefixes) : Statement (.pushEs p) :=
  of_opcode (Opcode.push .es).bytes rfl (by decide) (by decide)

theorem pushCs (p : Prefixes) : Statement (.pushCs p) :=
  of_opcode (Opcode.push .cs).bytes rfl (by decide) (by decide)

theorem pushSs (p : Prefixes) : Statement (.pushSs p) :=
  of_opcode (Opcode.push .ss).bytes rfl (by decide) (by decide)

theorem pushDs (p : Prefixes) : Statement (.pushDs p) :=
  of_opcode (Opcode.push .ds).bytes rfl (by decide) (by decide)

theorem pushFs (p : Prefixes) : Statement (.pushFs p) :=
  of_opcode (Opcode.push .fs).bytes rfl (by decide) (by decide)

theorem pushGs (p : Prefixes) : Statement (.pushGs p) :=
  of_opcode (Opcode.push .gs).bytes rfl (by decide) (by decide)

end Sys2Proof.Laws.EncodeLength
end

