-- ==== Sys2Proof/Tests/Slice0.lean ====
section
/-! SUPPORT. The package's own tests. Words and expected values are those of spec/opcode_table.json and of the vectors of
spec/95_test_vectors.md (named in each comment); what the vectors do not give is worked out by hand from the rules named.
The last section shows, for every statement with hypotheses, concrete inputs that meet them together. -/

namespace Sys2Proof.Tests

open Sys2Proof.Machine

/-! ## Helpers -/

/-- No bytes before the opcode. -/
def np : Prefixes := ⟨false, false, none⟩

/-- A 16-bit operand size. -/
def p16 : Prefixes := ⟨true, false, none⟩

/-- A field of the next state, where there is one. -/
def onNext {α : Type} (o : Host.Outcome State Fault Refusal) (f : State → α) : Option α :=
  match o with
  | .next t => some (f t)
  | .fault _ => none
  | .refused _ => none

/-- The fault, where there is one. -/
def faultOf (o : Host.Outcome State Fault Refusal) : Option Fault :=
  match o with
  | .next _ => none
  | .fault f => some f
  | .refused _ => none

/-- The refusal, where there is one. -/
def refusalOf (o : Host.Outcome State Fault Refusal) : Option Refusal :=
  match o with
  | .next _ => none
  | .fault _ => none
  | .refused r => some r

/-- The value of a result, where there is one. -/
def okOf {ε α : Type} : Except ε α → Option α
  | .ok a => some a
  | .error _ => none

/-- Why there is no result. -/
def errOf {ε α : Type} : Except ε α → Option ε
  | .ok _ => none
  | .error e => some e

/-- Whether there is a next state. -/
def goesOn (o : Host.Outcome State Fault Refusal) : Bool := (onNext o fun _ => ()).isSome

theorem next_of_goesOn {o : Host.Outcome State Fault Refusal} (h : goesOn o = true) : ∃ t, o = .next t := by
  cases o with
  | next t => exact ⟨t, rfl⟩
  | fault f => cases h
  | refused r => cases h

/-- GDT entries 1, 2, 3 = V1b, V1, V8 and LDT entry 1 = V3 (95 section 2.4), and bytes at 0x3000 for operands. -/
def tables : Memory :=
  writeBytes (writeBytes [] 0x1008
    [0xFF, 0xFF, 0x00, 0x00, 0x00, 0x9A, 0xCF, 0x00, 0xFF, 0xFF, 0x00, 0x00, 0x00, 0x92, 0xCF, 0x00,
     0x45, 0x23, 0xEF, 0xBE, 0xAD, 0x56, 0xD1, 0xDE]) 0x20008
    [0xFF, 0xFF, 0x00, 0x00, 0x40, 0xF2, 0x00, 0x00]

/-- The start state of 95 section 2.4, with the bytes `bs` at 0x3000, ESP 0x3000 and EAX as given. -/
def start (eax : Word) (bs : List Byte) : State :=
  { State.reset with
    mem := writeBytes tables 0x3000 bs
    gpr := { State.reset.gpr with eax := eax, esp := 0x3000, ebx := 0xB0B0B0B0 } }

/-- A memory operand at 0x3000. -/
def at3000 : MemOp := .abs 0x3000

/-- A register file with one register null. -/
def nulled (s : State) (r : SegName) : State := s.setSeg r ⟨0x0003, (s.segReg r).hid⟩

/-- A GDT of five entries, the last V7, a format 2 descriptor of an LDT at 0x20000 with limit 0x3F. -/
def withLdtEntry (s : State) : State :=
  { s with
    mem := writeBytes s.mem 0x1020 [0x3F, 0x00, 0x00, 0x00, 0x02, 0x82, 0x00, 0x00]
    gdtr := ⟨0x1000, 0x27⟩ }

/-- A GDT of five entries, the last a format 1 descriptor with P = 0 whose AVAILABLE bits are all ones (bit 21 among them:
R40, Figure 5-4). -/
def withNotPresent (s : State) : State :=
  { s with
    mem := writeBytes s.mem 0x1020 [0xFF, 0xFF, 0xFF, 0xFF, 0xFF, 0x12, 0xFF, 0xFF]
    gdtr := ⟨0x1000, 0x27⟩ }

/-- ProtCheck answering every load and every reference with one verdict. -/
def always (v : Verdict) : ProtCheck :=
  { loads := [⟨[.seg .cs, .seg .ss, .seg .ds, .seg .es, .seg .fs, .seg .gs, .ldtr], .any, .any, .any, v⟩]
    references := [⟨[.cs, .ss, .ds, .es, .fs, .gs], [.read, .write, .execute], none, .any, .any, .any, .any, .any,
      .anywhere, v⟩] }

/-! ## WellFormed: an ill-formed term for each check -/

theorem test_wf_base_esp : Instr.wf (.lgdt np (.base .esp .none)) = false := by decide
theorem test_wf_base_ebp_mod0 : Instr.wf (.lgdt np (.base .ebp .none)) = false := by decide
theorem test_wf_base_ebp_disp : Instr.wf (.lgdt np (.base .ebp (.d8 0))) = true := by decide
theorem test_wf_sib_ebp_mod0 : Instr.wf (.lgdt np (.sib .ebp .eax 0 .none)) = false := by decide
theorem test_wf_base16_bp_mod0 : Instr.wf (.lgdt ⟨false, true, none⟩ (.base16 .bp .none)) = false := by decide
theorem test_wf_address_size : Instr.wf (.lgdt np (.abs16 0)) = false ∧
    Instr.wf (.verr ⟨false, true, none⟩ (.mem (.abs 0))) = false := by decide
theorem test_wf_mov_cs : Instr.wf (.movToSreg np .cs (.reg .eax)) = false := by decide
theorem test_wf_far_offset16 : Instr.wf (.jmpPtr p16 0x10000 8) = false ∧ Instr.wf (.callPtr p16 0xFFFF 8) = true := by
  decide

/-! ## Decode: one word of every row, written out from its encoding in opcode_table.json -/

/-- 00001111 00000001 mm010rrr, m = 0, r = 3. -/
theorem test_decode_lgdt : decodeTableWord 24 0x0F0113 = some (.lgdt np (.base .ebx .none)) := by decide
/-- 00001111 00000001 mm000rrr, m = 0, r = 6. -/
theorem test_decode_sgdt : decodeTableWord 24 0x0F0106 = some (.sgdt np (.base .esi .none)) := by decide
/-- 00001111 00000000 mm010rrr, m = 3, r = 0 (95 P2: 0F 00 D0). -/
theorem test_decode_lldt : decodeTableWord 24 0x0F00D0 = some (.lldt np (.reg .eax)) := by decide
/-- 00001111 00000000 mm000rrr, m = 3, r = 1. -/
theorem test_decode_sldt : decodeTableWord 24 0x0F00C1 = some (.sldt np (.reg .ecx)) := by decide
/-- 10001110 mmsssrrr: 95 P1 8E D8, P2 8E C0, P3 8E E0, P4 8E E8. -/
theorem test_decode_movToSreg : decodeTableWord 16 0x8ED8 = some (.movToSreg np .ds (.reg .eax)) ∧
    decodeTableWord 16 0x8EC0 = some (.movToSreg np .es (.reg .eax)) ∧
    decodeTableWord 16 0x8EE0 = some (.movToSreg np .fs (.reg .eax)) ∧
    decodeTableWord 16 0x8EE8 = some (.movToSreg np .gs (.reg .eax)) := by decide
/-- Segment numbers 1, 6 and 7 are no destination. -/
theorem test_decode_movToSreg_invalid : decodeTableWord 16 0x8EC8 = none ∧ decodeTableWord 16 0x8EF0 = none ∧
    decodeTableWord 16 0x8EF8 = none := by decide
theorem test_decode_popEs : decodeTableWord 8 0x07 = some (.popEs np) := by decide
theorem test_decode_popSs : decodeTableWord 8 0x17 = some (.popSs np) := by decide
theorem test_decode_popDs : decodeTableWord 8 0x1F = some (.popDs np) := by decide
theorem test_decode_popFs : decodeTableWord 16 0x0FA1 = some (.popFs np) := by decide
theorem test_decode_popGs : decodeTableWord 16 0x0FA9 = some (.popGs np) := by decide
/-- 11000101 mmgggrrr, m = 0, g = 2, r = 7. -/
theorem test_decode_lds : decodeTableWord 16 0xC517 = some (.lds np .edx (.base .edi .none)) := by decide
/-- 00001111 10110010 mmgggrrr, m = 0, g = 4, r = 1. -/
theorem test_decode_lss : decodeTableWord 24 0x0FB221 = some (.lss np .esp (.base .ecx .none)) := by decide
/-- 00001111 10110101 mmgggrrr, m = 1, g = 0, r = 5, the displacement byte zero. -/
theorem test_decode_lgs : decodeTableWord 24 0x0FB545 = some (.lgs np .eax (.base .ebp (.d8 0))) := by decide
/-- 00001111 10110100 mmgggrrr, m = 2, g = 3, r = 2, four displacement bytes zero. -/
theorem test_decode_lfs : decodeTableWord 24 0x0FB49A = some (.lfs np .ebx (.base .edx (.d32 0))) := by decide
theorem test_decode_callPtr : okOf (decode [0x9A, 0x44, 0x33, 0x22, 0x11, 0x08, 0x00]) =
    some (.callPtr np 0x11223344 0x0008, []) := by decide
/-- 11111111 mm011rrr, m = 0, r = 0. -/
theorem test_decode_callMem : decodeTableWord 16 0xFF18 = some (.callMem np (.base .eax .none)) := by decide
/-- 95 P5: EA 00 01 00 00 08 00; and with a 16-bit operand size, a 2-byte offset. -/
theorem test_decode_jmpPtr : okOf (decode [0xEA, 0x00, 0x01, 0x00, 0x00, 0x08, 0x00]) =
    some (.jmpPtr np 0x00000100 0x0008, []) ∧
    okOf (decode [0x66, 0xEA, 0x34, 0x12, 0x08, 0x00]) =
    some (.jmpPtr p16 0x00001234 0x0008, []) := by decide
/-- 11111111 mm101rrr, m = 0, r = 4 (a SIB byte of zero: base EAX, index EAX, scale 1). -/
theorem test_decode_jmpMem : decodeTableWord 16 0xFF2C = some (.jmpMem np (.sib .eax .eax 0 .none)) := by decide
/-- 00001111 00000010 mmgggrrr, m = 3, g = 1, r = 3. -/
theorem test_decode_lar : decodeTableWord 24 0x0F02CB = some (.lar np .ecx (.reg .ebx)) := by decide
/-- 00001111 00000011 mmgggrrr, m = 3, g = 6, r = 2. -/
theorem test_decode_lsl : decodeTableWord 24 0x0F03F2 = some (.lsl np .esi (.reg .edx)) := by decide
/-- 00001111 00000000 mm100rrr, m = 3, r = 0. -/
theorem test_decode_verr : decodeTableWord 24 0x0F00E0 = some (.verr np (.reg .eax)) := by decide
/-- 00001111 00000000 mm101rrr, m = 0, r = 5 (disp32 zero). -/
theorem test_decode_verw : decodeTableWord 24 0x0F002D = some (.verw np (.mem (.abs 0))) := by decide
/-- 10001100 mmsssrrr: 95 P2 8C C0, P3 8C E0; and CS may be read. -/
theorem test_decode_movFromSreg : decodeTableWord 16 0x8CC0 = some (.movFromSreg np .es (.reg .eax)) ∧
    decodeTableWord 16 0x8CE0 = some (.movFromSreg np .fs (.reg .eax)) ∧
    decodeTableWord 16 0x8CC8 = some (.movFromSreg np .cs (.reg .eax)) := by decide
theorem test_decode_pushEs : decodeTableWord 8 0x06 = some (.pushEs np) := by decide
theorem test_decode_pushCs : decodeTableWord 8 0x0E = some (.pushCs np) := by decide
theorem test_decode_pushSs : decodeTableWord 8 0x16 = some (.pushSs np) := by decide
theorem test_decode_pushDs : decodeTableWord 8 0x1E = some (.pushDs np) := by decide
theorem test_decode_pushFs : decodeTableWord 16 0x0FA0 = some (.pushFs np) := by decide
theorem test_decode_pushGs : decodeTableWord 16 0x0FA8 = some (.pushGs np) := by decide
/-- The bytes before the opcode (log 4): an ES override and a 16-bit address size; r/m 2 of 16-bit addressing is BP + SI. -/
theorem test_decode_leading : okOf (decode [0x26, 0x67, 0x0F, 0x01, 0x52, 0x80]) =
    some (.lgdt ⟨false, true, some .es⟩ (.base16 .bpSi (.d8 0x80)), []) := by decide
/-- Refusals by name (R79, U19; opcode_table.json "must not be 3"). -/
theorem test_decode_refused : errOf (decode [0xC4, 0x00]) = some .lesHasNoRule ∧ errOf (decode [0xCB]) = some .farReturnHasNoRule ∧
    errOf (decode [0xCF]) = some .interruptReturnHasNoRule ∧ errOf (decode [0xCD, 0x21]) = some .interruptHasNoRule ∧
    errOf (decode [0x0F, 0x01, 0xD0]) = some .registerOperand ∧ errOf (decode [0xFF, 0xD8]) = some .registerOperand ∧
    errOf (decode [0x90]) = some (.unknownOpcode 0x90) ∧ errOf (decode [0x0F, 0x00, 0xD8]) = some (.unknownInGroup 0x00 3) := by decide

/-! ## Selectors, descriptors (95 sections 2.1 to 2.3) -/

/-- T1 to T15: index, ti, rpl, IsNull. -/
theorem test_selectors :
    ([(0x0000, 0, 0, 0, true), (0x0001, 0, 0, 1, true), (0x0002, 0, 0, 2, true), (0x0003, 0, 0, 3, true),
      (0x0004, 0, 1, 0, false), (0x0007, 0, 1, 3, false), (0x0008, 1, 0, 0, false), (0x0010, 2, 0, 0, false),
      (0x0013, 2, 0, 3, false), (0x000F, 1, 1, 3, false), (0x001F, 3, 1, 3, false), (0x1234, 582, 1, 0, false),
      (0xFFF8, 8191, 0, 0, false), (0xFFFB, 8191, 0, 3, false), (0xFFFF, 8191, 1, 3, false)] :
      List (Half × Nat × Nat × Nat × Bool)).all
      (fun v => (selIndex v.1).toNat == v.2.1 && (selTi v.1).toNat == v.2.2.1 && (selRpl v.1).toNat == v.2.2.2.1
        && isNull v.1 == v.2.2.2.2) = true := by decide

/-- A1 to A6. -/
theorem test_descAddr :
    descAddr State.reset 0x0010 = 0x00001010 ∧ descAddr State.reset 0x0013 = 0x00001010 ∧
    descAddr State.reset 0x000F = 0x00020008 ∧ descAddr State.reset 0x1234 = 0x00021230 ∧
    entryAddr ⟨0x00001003, 0⟩ 0x0008 = 0x0000100B ∧ entryAddr ⟨0xFFFFFFF8, 0⟩ 0xFFF8 = 0x0000FFF0 := by decide

/-- V1 to V10: D0, D4, base, limit field, effective limit, P, S, A, attributes. -/
theorem test_descriptors :
    ([(0x0000FFFF, 0x00CF9200, 0x00000000, 0xFFFFF, 0xFFFFFFFF, true, true, false, 0xC92),
      (0x0000FFFF, 0x00CF9A00, 0x00000000, 0xFFFFF, 0xFFFFFFFF, true, true, false, 0xC9A),
      (0x5678BCDE, 0x12CA9234, 0x12345678, 0xABCDE, 0xABCDEFFF, true, true, false, 0xC92),
      (0x0000FFFF, 0x0000F240, 0x00400000, 0x0FFFF, 0x0000FFFF, true, true, false, 0x0F2),
      (0x00000000, 0x00009301, 0x00010000, 0x00000, 0x00000000, true, true, true, 0x093),
      (0x00000000, 0x00809301, 0x00010000, 0x00000, 0x00000FFF, true, true, true, 0x893),
      (0xFFFFFFFF, 0xFFFFFFFF, 0xFFFFFFFF, 0xFFFFF, 0xFFFFFFFF, true, true, true, 0xFFF),
      (0x0000003F, 0x00008202, 0x00020000, 0x0003F, 0x0000003F, true, false, false, 0x082),
      (0xBEEF2345, 0xDED156AD, 0xDEADBEEF, 0x12345, 0x12345FFF, false, true, false, 0xD56),
      (0xF000FFFF, 0xFFCF92FF, 0xFFFFF000, 0xFFFFF, 0xFFFFFFFF, true, true, false, 0xC92),
      (0x80007FFF, 0x0010F30B, 0x000B8000, 0x07FFF, 0x00007FFF, true, true, true, 0x1F3)] :
      List (Word × Word × Word × BitVec 20 × Word × Bool × Bool × Bool × BitVec 12)).all
      (fun (d0, d4, b, l, e, p, s, a, at') => descBase d0 d4 == b && descLimit20 d0 d4 == l && descEffLimit d0 d4 == e
        && descP d4 == p && descS d4 == s && descA d4 == a && descAttrs d4 == at') = true := by decide

/-- V2's bytes in address order give its doublewords (R46). -/
theorem test_descriptor_bytes :
    descAt (writeBytes [] 0x5000 [0xDE, 0xBC, 0x78, 0x56, 0x34, 0x92, 0xCA, 0x12]) 0x5000 =
      ⟨0x5000, 0x5678BCDE, 0x12CA9234⟩ := by decide

/-! ## Segment-register loads (95 section 2.4) -/

/-- A load's register and the byte at an address afterwards. -/
def loaded (x : Result State) (r : SegName) (a : Nat) : Option (SegReg × Byte) :=
  match x with
  | .ok t => some (t.segReg r, t.mem.read a)
  | .error _ => none

/-- L1, L2, L3, L11. -/
theorem test_loadSeg :
    loaded (loadSeg (start 0 []) .ds 0x0010) .ds 0x1015 = some (⟨0x0010, ⟨0, 0xFFFFFFFF, 0xC93⟩⟩, 0x93) ∧
    loaded (loadSeg (start 0 []) .ds 0x0013) .ds 0x1015 = some (⟨0x0013, ⟨0, 0xFFFFFFFF, 0xC93⟩⟩, 0x93) ∧
    loaded (loadSeg (start 0 []) .es 0x000F) .es 0x2000D = some (⟨0x000F, ⟨0x00400000, 0x0000FFFF, 0x0F3⟩⟩, 0xF3) ∧
    loaded (loadSeg (start 0 []) .cs 0x0008) .cs 0x100D = some (⟨0x0008, ⟨0, 0xFFFFFFFF, 0xC9B⟩⟩, 0x9B) := by decide

/-- L5, L6, L9, L10. -/
theorem test_loadSeg_stops :
    errOf (loadSeg (start 0 []) .gs 0x0018) = some (.fault (.segmentNotPresent 0x0018)) ∧
    errOf (loadSeg (start 0 []) .ds 0x0020) = some (.fault (.descriptorTableLimit 0x0020)) ∧
    errOf (loadSeg (start 0 []) .ss 0x0000) = some (.fault (.nullSelectorLoad .ss)) ∧
    errOf (loadSeg (start 0 []) .cs 0x0002) = some (.fault (.nullSelectorLoad .cs)) := by decide

/-- R40, U3: the AVAILABLE bits of a not-present descriptor are not looked at, bit 21 among them; with P = 1 that bit is
refused (U1; 95 V6). -/
theorem test_loadSeg_notPresent :
    errOf (loadSeg (withNotPresent (start 0 [])) .ds 0x0020) = some (.fault (.segmentNotPresent 0x0020)) ∧
    errOf (loadSeg { start 0 [] with mem := writeBytes tables 0x1010 (List.replicate 8 0xFF) } .ds 0x0010) =
      some (.refused (.protCheckNotNamed (.load (.seg .ds) 0x0010 0xFFFFFFFF 0xFFFFFFFF))) := by decide

/-- L7, L8: the selector only, the hidden part is free. -/
theorem test_loadSeg_null :
    (match loadSeg (start 0 []) .fs 0x0000 with | .ok t => (t.segReg .fs).sel == 0x0000 | .error _ => false) = true ∧
    (match loadSeg (start 0 []) .gs 0x0003 with | .ok t => (t.segReg .gs).sel == 0x0003 | .error _ => false) = true := by
  decide

/-- L13, L14, L16: the whole descriptor lies within the limit. -/
theorem test_loadSeg_limit :
    errOf (loadSeg { start 0 [] with gdtr := ⟨0x1000, 0x0016⟩ } .ds 0x0010) = some (.fault (.descriptorTableLimit 0x0010)) ∧
    loaded (loadSeg { start 0 [] with gdtr := ⟨0x1000, 0x0017⟩ } .ds 0x0010) .ds 0x1015 =
      some (⟨0x0010, ⟨0, 0xFFFFFFFF, 0xC93⟩⟩, 0x93) ∧
    errOf (loadSeg { start 0 [] with ldtr := ⟨0x20000, 0x0006⟩ } .es 0x000F) = some (.fault (.descriptorTableLimit 0x000F)) := by decide

/-- L12, L15 (ProtCheck passing), L17. -/
theorem test_loadSeg_other :
    loaded (loadSeg { start 0 [] with mem := writeBytes tables 0x20000 [0xDE, 0xBC, 0x78, 0x56, 0x34, 0x92, 0xCA, 0x12] }
      .ds 0x0004) .ds 0x20005 = some (⟨0x0004, ⟨0x12345678, 0xABCDEFFF, 0xC93⟩⟩, 0x93) ∧
    loaded (loadSeg { start 0 [] with
        mem := writeBytes tables 0x1010 [0x3F, 0x00, 0x00, 0x00, 0x02, 0x82, 0x00, 0x00], prot := always .pass }
      .ds 0x0010) .ds 0x1015 = some (⟨0x0010, ⟨0x00020000, 0x0000003F, 0x082⟩⟩, 0x82) ∧
    loaded (loadSeg { start 0 [] with mem := writeBytes tables 0x1010 [0xFF, 0x7F, 0x00, 0x80, 0x0B, 0xF3, 0x10, 0x00] }
      .ds 0x0010) .ds 0x1015 = some (⟨0x0010, ⟨0x000B8000, 0x00007FFF, 0x1F3⟩⟩, 0xF3) := by decide

/-! ## Translation and reference (95 section 2.5) -/

/-- A state whose DS has this base. -/
def dsBase (b : Word) : State := (start 0 []).setSeg .ds ⟨0x0010, ⟨b, 0xFFFFFFFF, 0xC93⟩⟩

/-- X1, X2, X4, X8. -/
theorem test_translate :
    okOf (translate (dsBase 0x00000000) .ds 0x00012345 1 .read) = some 0x00012345 ∧
    okOf (translate (dsBase 0x12345678) .ds 0x00001000 1 .read) = some 0x12346678 ∧
    okOf (translate (dsBase 0xFFFFF000) .ds 0x00001234 1 .read) = some 0x00000234 ∧
    okOf (translate (dsBase 0x00100000) .ds 0x00000020 1 .read) = some 0x00100020 := by decide

/-- X5, X6, X7. -/
theorem test_translate_stops :
    errOf (translate (dsBase 0x00000010) .ds 0xFFFFFFFE 4 .read) = some (.refused (.offsetWraps .ds 0xFFFFFFFE 4)) ∧
    errOf (translate (nulled (start 0 []) .fs) .fs 0x00000000 1 .read) = some (.fault (.nullSegmentReference .fs)) ∧
    errOf (translate (nulled (start 0 []) .gs) .gs 0x00001000 4 .write) = some (.fault (.nullSegmentReference .gs)) := by decide

/-- 95 P2 step 3: a 2-byte write through ES at base 0x00400000. -/
theorem test_refWrite :
    (match refWrite ((start 0 []).setSeg .es ⟨0x000F, ⟨0x00400000, 0xFFFF, 0x0F3⟩⟩) .es 0x00001234 2 0xBEEF with
      | .ok t => (t.mem.read 0x00401234, t.mem.read 0x00401235)
      | .error _ => (0, 0)) = (0xEF, 0xBE) := by decide

/-! ## One step of each instruction -/

/-- DT1 with the bytes of 95 P1 (17 00 00 10 00 00). -/
theorem test_lgdt : onNext (exec (.lgdt np at3000) (start 0 [0x17, 0x00, 0x00, 0x10, 0x00, 0x00])) (·.gdtr) =
    some ⟨0x00001000, 0x0017⟩ := by decide
/-- DT2: limit first, then base. -/
theorem test_sgdt : onNext (exec (.sgdt np at3000) (start 0 [])) (fun t => readBytes t.mem 0x3000 6) =
    some [0x1F, 0x00, 0x00, 0x10, 0x00, 0x00] := by decide
/-- DT3, from V7 as GDT entry 4. -/
theorem test_lldt : onNext (exec (.lldt np (.reg .eax)) (withLdtEntry (start 0x20 []))) (fun t => (t.ldtr, t.ldtrSel)) =
    some (⟨0x00020000, 0x003F⟩, 0x0020) := by decide
/-- R68, D17: a null selector leaves no table. -/
theorem test_lldt_null : onNext (exec (.lldt np (.reg .eax)) (start 4 [])) (fun t => (t.ldtrSel, t.gdtr)) =
    some (0x0004, ⟨0x1000, 0x1F⟩) := by decide
/-- DT4 and D16: the pair, and the selector in the low half of the register. -/
theorem test_sldt : onNext (exec (.sldt np (.reg .ebx)) { start 0 [] with ldtr := ⟨0x20000, 0x3F⟩, ldtrSel := 0x20 })
    (fun t => (t.sldtDst, t.gpr.ebx)) = some (⟨0x20000, 0x3F⟩, 0xB0B00020) := by decide
/-- 95 P1 step 2 (L1). -/
theorem test_movToSreg : onNext (exec (.movToSreg np .ds (.reg .eax)) (start 0xABCD0010 []))
    (fun t => (t.seg.ds, t.mem.read 0x1015)) = some (⟨0x0010, ⟨0, 0xFFFFFFFF, 0xC93⟩⟩, 0x93) := by decide
/-- 95 P4. -/
theorem test_movToSreg_absent : faultOf (exec (.movToSreg np .gs (.reg .eax)) (start 0x18 [])) =
    some (.segmentNotPresent 0x0018) := by decide
/-- R72: the low 16 bits of a 32-bit item, ESP past 4 bytes. -/
theorem test_popEs : onNext (exec (.popEs np) (start 0 [0x0F, 0x00, 0xAD, 0xDE])) (fun t => (t.seg.es, t.gpr.esp)) =
    some (⟨0x000F, ⟨0x00400000, 0xFFFF, 0x0F3⟩⟩, 0x3004) := by decide
/-- R93 (L9). -/
theorem test_popSs : faultOf (exec (.popSs np) (start 0 [0x03])) = some (.nullSelectorLoad .ss) := by decide
theorem test_popSs_loads : onNext (exec (.popSs np) (start 0 [0x10])) (fun t => (t.seg.ss.sel, t.gpr.esp)) =
    some (0x0010, 0x3004) := by decide
/-- A 16-bit item. -/
theorem test_popDs : onNext (exec (.popDs p16) (start 0 [0x13, 0x00])) (fun t => (t.seg.ds.sel, t.gpr.esp)) =
    some (0x0013, 0x3002) := by decide
/-- L7. -/
theorem test_popFs : onNext (exec (.popFs np) (start 0 [])) (fun t => (t.seg.fs.sel, t.mem == tables)) =
    some (0x0000, true) := by decide
/-- L6. -/
theorem test_popGs : faultOf (exec (.popGs np) (start 0 [0x20])) = some (.descriptorTableLimit 0x0020) := by decide
theorem test_popGs_loads : onNext (exec (.popGs np) (start 0 [0x10])) (fun t => (t.seg.gs.sel, t.gpr.esp)) =
    some (0x0010, 0x3004) := by decide
/-- R73: offset at the lower address, then the selector. -/
theorem test_lds : onNext (exec (.lds np .ebx at3000) (start 0 [0x44, 0x33, 0x22, 0x11, 0x13, 0x00]))
    (fun t => (t.seg.ds.sel, t.gpr.ebx)) = some (0x0013, 0x11223344) := by decide
/-- R74, with a 16-bit operand size: a 2-byte offset into the low half. -/
theorem test_lss : onNext (exec (.lss p16 .ebx at3000) (start 0 [0x44, 0x33, 0x10, 0x00]))
    (fun t => (t.seg.ss.sel, t.gpr.ebx)) = some (0x0010, 0xB0B03344) := by decide
theorem test_lgs : onNext (exec (.lgs np .ebx at3000) (start 0 [0x01, 0x00, 0x00, 0x00, 0x0F, 0x00]))
    (fun t => (t.seg.gs, t.seg.fs.sel, t.gpr.ebx)) = some (⟨0x000F, ⟨0x00400000, 0xFFFF, 0x0F3⟩⟩, 0x0010, 1) := by decide
theorem test_lfs : onNext (exec (.lfs np .ebx at3000) (start 0 [0x02, 0x00, 0x00, 0x00, 0x0F, 0x00]))
    (fun t => (t.seg.fs, t.seg.gs.sel, t.gpr.ebx)) = some (⟨0x000F, ⟨0x00400000, 0xFFFF, 0x0F3⟩⟩, 0x0010, 2) := by decide
/-- R77 (log 22): CS loaded, two 4-byte items on the stack (the free half of one keeps `decide` from reading them back). -/
theorem test_callPtr : onNext (exec (.callPtr np 0x100 0x000B) (start 0 []))
    (fun t => (t.seg.cs.sel, t.eip, t.gpr.esp)) = some (0x000B, 0x100, 0x2FF8) := by decide
/-- U18. -/
theorem test_callPtr_system : refusalOf (exec (.callPtr np 0 0x20) (withLdtEntry (start 0 []))) =
    some (.farTransferToSystem 0x0020) := by decide
/-- R77 (log 22), 2-byte items: the return offset under the old CS selector. -/
theorem test_callMem : onNext (exec (.callMem p16 at3000) (start 0 [0x34, 0x12, 0x08, 0x00]))
    (fun t => (t.seg.cs.sel, t.eip, t.gpr.esp, memRead t.mem 0x2FFC 2, memRead t.mem 0x2FFE 2)) =
    some (0x0008, 0x1234, 0x2FFC, 0xFFF0, 0x0008) := by decide
/-- 95 P5 step 1. -/
theorem test_jmpPtr : onNext (exec (.jmpPtr np 0x100 0x0008) (start 0 [])) (fun t => (t.seg.cs, t.eip, t.mem.read 0x100D)) =
    some (⟨0x0008, ⟨0, 0xFFFFFFFF, 0xC9B⟩⟩, 0x100, 0x9B) := by decide
/-- R93 (L10). -/
theorem test_jmpMem : faultOf (exec (.jmpMem np at3000) (start 0 [0x00, 0x01, 0x00, 0x00, 0x02, 0x00])) =
    some (.nullSelectorLoad .cs) := by decide
theorem test_jmpMem_loads : onNext (exec (.jmpMem np at3000) (start 0 [0x00, 0x01, 0x00, 0x00, 0x0A, 0x00]))
    (fun t => (t.seg.cs.sel, t.eip)) = some (0x000A, 0x100) := by decide
/-- S1: the accessed bit, and no segment register. -/
theorem test_lar : onNext (exec (.lar np .ecx (.reg .eax)) (start 0x10 [])) (fun t => (t.mem.read 0x1015, t.seg == State.reset.seg)) =
    some (0x93, true) := by decide
/-- S2: the bit set already, no write. -/
theorem test_lsl : onNext (exec (.lsl np .ecx (.reg .eax)) { start 0x10 [] with mem := tables.write 0x1015 0x93 })
    (fun t => t.mem == tables.write 0x1015 0x93) = some true := by decide
/-- S3. -/
theorem test_verr : refusalOf (exec (.verr np (.reg .eax)) (start 0x18 [])) =
    some (.selectorTest .notPresent 0x0018) := by decide
theorem test_verr_sets : onNext (exec (.verr np (.reg .eax)) (start 0x0F [])) (fun t => t.mem.read 0x2000D) = some 0xF3 := by
  decide
/-- S1: EFLAGS but for ZF as before. -/
theorem test_verw : onNext (exec (.verw np (.reg .eax)) (start 0x10 [])) (fun t => t.mem.read 0x1015) = some 0x93 := by decide
/-- X9: reading a null selector is no reference. -/
theorem test_movFromSreg : onNext (exec (.movFromSreg np .fs (.reg .ebx)) (nulled (start 0 []) .fs)) (·.gpr.ebx) =
    some 0xB0B00003 := by decide
/-- R82 through SS: a 4-byte item (its free upper half keeps `decide` from reading it back), then 2-byte ones. -/
theorem test_pushEs : onNext (exec (.pushEs np) (start 0 [])) (·.gpr.esp) = some 0x2FFC := by decide
theorem test_pushCs : onNext (exec (.pushCs p16) (start 0 [])) (fun t => (memRead t.mem 0x2FFE 2, t.gpr.esp)) =
    some (0x0008, 0x2FFE) := by decide
theorem test_pushSs : onNext (exec (.pushSs p16) (start 0 [])) (fun t => (memRead t.mem 0x2FFE 2, t.gpr.esp)) =
    some (0x0010, 0x2FFE) := by decide
theorem test_pushDs : onNext (exec (.pushDs p16) (nulled (start 0 []) .ds)) (fun t => (memRead t.mem 0x2FFE 2, t.gpr.esp)) =
    some (0x0003, 0x2FFE) := by decide
theorem test_pushFs : onNext (exec (.pushFs p16) (nulled (start 0 []) .fs)) (fun t => (memRead t.mem 0x2FFE 2, t.gpr.esp)) =
    some (0x0003, 0x2FFE) := by decide
/-- R92: the stack through a null SS. -/
theorem test_pushGs : faultOf (exec (.pushGs np) (nulled (start 0 []) .ss)) = some (.nullSegmentReference .ss) := by decide
theorem test_pushGs_writes : onNext (exec (.pushGs p16) (nulled (start 0 []) .gs)) (fun t => (memRead t.mem 0x2FFE 2, t.gpr.esp)) =
    some (0x0003, 0x2FFE) := by decide
/-- R20: the fetch goes through CS, and EIP moves past the instruction (95 P1 step 2's bytes). -/
theorem test_step : onNext (step { start 0x10 [] with mem := writeBytes tables 0xFFF0 [0x8E, 0xD8] })
    (fun t => (t.seg.ds.sel, t.eip)) = some (0x0010, 0xFFF2) := by decide

/-! ## Witnesses: inputs that meet the hypotheses of each statement together

One conjunct per clause of the statement named in the comment, in its order. -/

/-- EffectiveLimitScaledByG: V3 has G clear, V1 has G set. -/
theorem wit_effectiveLimit : (0x0000F240 : Word).getLsbD 23 = false ∧ (0x00CF9200 : Word).getLsbD 23 = true := by decide

/-- BaseIsThreeFragments, the last clause: DS as reset holds it, and V1. -/
theorem wit_base : (State.reset.segReg .ds).hid.base = descBase 0x0000FFFF 0x00CF9200 := by decide

/-- TranslateOutcome: a null register; offsets one past 2^32; a violation, a query not named and a pass with the last offset
0xFFFFFFFF; a query that reset's ProtCheck does not name (the byte at offset 0x10000 of a segment with limit 0xFFFF). -/
theorem wit_translate :
    isNull ((nulled (start 0 []) .fs).segReg .fs).sel = true ∧
    (isNull ((start 0 []).segReg .ds).sel = false ∧ 2 ^ 32 < (0xFFFFFFFD : Word).toNat + 4) ∧
    (isNull ((start 0 []).segReg .ds).sel = false ∧ (0xFFFFFFFC : Word).toNat + 4 ≤ 2 ^ 32 ∧
      (always .violation).reference .ds ((start 0 []).segReg .ds) 0xFFFFFFFC 4 .read = .violation) ∧
    (isNull ((start 0 []).segReg .ds).sel = false ∧ (0xFFFFFFFC : Word).toNat + 4 ≤ 2 ^ 32 ∧
      (always .notNamed).reference .ds ((start 0 []).segReg .ds) 0xFFFFFFFC 4 .read = .notNamed ∧
      ProtCheck.reset.reference .es ⟨0x000F, ⟨0x00400000, 0xFFFF, 0x0F3⟩⟩ 0x10000 1 .read = .notNamed) ∧
    (isNull ((start 0 []).segReg .ds).sel = false ∧ (0xFFFFFFFC : Word).toNat + 4 ≤ 2 ^ 32 ∧
      (start 0 []).prot.reference .ds ((start 0 []).segReg .ds) 0xFFFFFFFC 4 .read = .pass) := by decide

/-- TranslateReadsOnlyItsSegmentRegister: two states that differ in memory, GDTR and another segment register. -/
theorem wit_translateReads :
    (nulled (withLdtEntry (start 0 [])) .fs).segReg .ds = (start 0 []).segReg .ds ∧
    (nulled (withLdtEntry (start 0 [])) .fs).prot = (start 0 []).prot ∧
    nulled (withLdtEntry (start 0 [])) .fs ≠ start 0 [] := by decide

/-- ReferenceWrittenReadsBack, at the top of the offset range. -/
theorem wit_reference : (start 0 []).mem.wf = true ∧ refOk (start 0 []) .ds 0xFFFFFFFC 4 .write = true ∧
    refOk (start 0 []) .ds 0xFFFFFFFC 4 .read = true := by decide

/-- NullIntoCsOrSsRaises: SS by POP, CS by JMP, with the largest null selector. -/
theorem wit_nullInto :
    (loadTarget (.popSs np) = some .ss ∧ loadSel (start 0 [3]) (.popSs np) = some 3 ∧ isNull 3 = true) ∧
    (loadTarget (.jmpPtr np 0 3) = some .cs ∧ loadSel (start 0 []) (.jmpPtr np 0 3) = some 3) := by decide

/-- BeyondTableLimitRaises: a limit one too small (L13), and a limit of 6 in LDTR (L16). -/
theorem wit_beyond :
    (loadTarget (.movToSreg np .ds (.reg .eax)) = some .ds ∧
      loadSel { start 0x10 [] with gdtr := ⟨0x1000, 0x16⟩ } (.movToSreg np .ds (.reg .eax)) = some 0x10 ∧
      isNull 0x10 = false ∧
      (tableOf { start 0x10 [] with gdtr := ⟨0x1000, 0x16⟩ } 0x10).limit.toNat < 8 * (selIndex 0x10).toNat + 7) ∧
    (loadSel { start 0x04 [] with ldtr := ⟨0x20000, 6⟩ } (.movToSreg np .ds (.reg .eax)) = some 0x04 ∧
      (6 : DtrLimit).toNat < 7 ∧ selTi 0x04 = 1) := by decide

/-- ProtCheckDecidesBeforePresentBit: V1 under a ProtCheck that answers violation (DS, and CS, where S is 1); V7 into DS, which
ProtCheck at reset does not name. NotPresentRaisesAtTheLoad: V8. -/
theorem wit_protThenPresent :
    (loadSel { start 0x10 [] with prot := always .violation } (.movToSreg np .ds (.reg .eax)) = some 0x10 ∧
      names { start 0x10 [] with prot := always .violation } 0x10 = true ∧
      (always .violation).load (.seg .ds) 0x10 0x0000FFFF 0x00CF9200 = .violation ∧
      namedDesc (start 0x10 []) 0x10 = ⟨0x1010, 0x0000FFFF, 0x00CF9200⟩) ∧
    (names (start 0 []) 0x08 = true ∧ descS (namedDesc (start 0 []) 0x08).d4 = true ∧
      (always .violation).load (.seg .cs) 0x08 0x0000FFFF 0x00CF9A00 = .violation) ∧
    (loadSel (withLdtEntry (start 0x20 [])) (.movToSreg np .ds (.reg .eax)) = some 0x20 ∧
      names (withLdtEntry (start 0x20 [])) 0x20 = true ∧
      (withLdtEntry (start 0x20 [])).prot.load (.seg .ds) 0x20 (namedDesc (withLdtEntry (start 0x20 [])) 0x20).d0
        (namedDesc (withLdtEntry (start 0x20 [])) 0x20).d4 = .notNamed) ∧
    (loadSel (start 0x18 []) (.movToSreg np .gs (.reg .eax)) = some 0x18 ∧ names (start 0x18 []) 0x18 = true ∧
      (start 0x18 []).prot.load (.seg .gs) 0x18 (namedDesc (start 0x18 []) 0x18).d0 (namedDesc (start 0x18 []) 0x18).d4
        = .pass ∧ descP (namedDesc (start 0x18 []) 0x18).d4 = false) := by decide

/-- NotPresentLoadReadsOneByte: two descriptors with P = 0 that agree in D4[15:8] alone, loaded into DS and CS; and by LLDT. -/
theorem wit_notPresentByte :
    let s := withNotPresent (start 0x20 [])
    let t := { s with mem := writeBytes s.mem 0x1020 [0, 0, 0, 0, 0, 0x12, 0, 0] }
    t.prot = s.prot ∧
    (loadTarget (.movToSreg np .ds (.reg .eax)) = some .ds ∧
      loadSel s (.movToSreg np .ds (.reg .eax)) = some 0x20 ∧ loadSel t (.movToSreg np .ds (.reg .eax)) = some 0x20 ∧
      loadTarget (.jmpPtr np 0 0x20) = some .cs ∧ loadSel s (.jmpPtr np 0 0x20) = some 0x20 ∧
      loadSel t (.jmpPtr np 0 0x20) = some 0x20 ∧
      names s 0x20 = true ∧ names t 0x20 = true ∧ descP (namedDesc s 0x20).d4 = false ∧
      (namedDesc t 0x20).d4.extractLsb' 8 8 = (namedDesc s 0x20).d4.extractLsb' 8 8 ∧
      namedDesc t 0x20 ≠ namedDesc s 0x20) ∧
    (rmOk s np (.reg .eax) = true ∧ rmOk t np (.reg .eax) = true ∧ rmVal s np (.reg .eax) = 0x20 ∧
      rmVal t np (.reg .eax) = 0x20 ∧ isNull (tiCleared 0x20) = false ∧ inTable s.gdtr 0x20 = true ∧
      inTable t.gdtr 0x20 = true ∧ descP (descAt s.mem (entryAddr s.gdtr 0x20)).d4 = false ∧
      (descAt t.mem (entryAddr t.gdtr 0x20)).d4.extractLsb' 8 8 =
        (descAt s.mem (entryAddr s.gdtr 0x20)).d4.extractLsb' 8 8) := by decide

/-- FarTransferToSystemRefused: V7. -/
theorem wit_farSystem : loadTarget (.jmpPtr np 0 0x20) = some .cs ∧
    loadSel (withLdtEntry (start 0 [])) (.jmpPtr np 0 0x20) = some 0x20 ∧ names (withLdtEntry (start 0 [])) 0x20 = true ∧
    descS (namedDesc (withLdtEntry (start 0 [])) 0x20).d4 = false := by decide

/-- MovToCsRefused: mod 3, reg 1. -/
theorem wit_movCs : (0xC8 : Byte).extractLsb' 3 3 = 1 ∧ (0xC8 : Byte).extractLsb' 6 2 = 3 := by decide

/-- MovLoadsSegmentRegister, memory and register operand; the null selector 3. -/
theorem wit_mov :
    (rmOk (start 0 [0x10]) np (.mem at3000) = true ∧ loadOk (start 0 [0x10]) .ds (rmVal (start 0 [0x10]) np (.mem at3000))
      = true) ∧
    (rmOk (start 3 []) np (.reg .eax) = true ∧ isNull (rmVal (start 3 []) np (.reg .eax)) = true) := by decide

/-- PopLoadsSegmentRegister. -/
theorem wit_pop : (∃ i, ofPop np .ss = .ok i) ∧
    (stackOk (start 0 [0x10]) false = true ∧ loadOk (start 0 [0x10]) .ss (stackSel (start 0 [0x10])) = true) ∧
    (stackOk (start 0 [3]) true = true ∧ isNull (stackSel (start 0 [3])) = true) := ⟨⟨_, rfl⟩, by decide⟩

/-- LoadPointerLoadsSegmentAndOffset, with a 32-bit and with a 16-bit operand size. -/
theorem wit_pointer :
    (pointerInstr np .ebx at3000 .ss = some (.lss np .ebx at3000) ∧
      memOk (start 0 [1, 2, 3, 4, 0x10]) np at3000 (farSize false) .read = true ∧
      loadOk (start 0 [1, 2, 3, 4, 0x10]) .ss (farSel (start 0 [1, 2, 3, 4, 0x10]) np at3000) = true) ∧
    (pointerInstr p16 .ebx at3000 .fs = some (.lfs p16 .ebx at3000) ∧
      memOk (start 0 [1, 2, 3]) p16 at3000 (farSize true) .read = true ∧
      isNull (farSel (start 0 [1, 2, 3]) p16 at3000) = true) := by decide

/-- FarJumpLoadsCsAndContinues, both forms. -/
theorem wit_jmp :
    (loadOk (start 0 []) .cs 0x08 = true ∧ descS (namedDesc (start 0 []) 0x08).d4 = true) ∧
    (memOk (start 0 [0, 1, 0, 0, 8]) np at3000 (farSize false) .read = true ∧
      loadOk (start 0 [0, 1, 0, 0, 8]) .cs (farSel (start 0 [0, 1, 0, 0, 8]) np at3000) = true ∧
      descS (namedDesc (start 0 [0, 1, 0, 0, 8]) (farSel (start 0 [0, 1, 0, 0, 8]) np at3000)).d4 = true) := by decide

/-- FarCallLoadsCsAndSavesReturn, both forms; the second with ESP 0, whose items lie at the top of the offsets. -/
theorem wit_call :
    ((start 0 []).mem.wf = true ∧ farCallOk (start 0 []) false 0x08 = true) ∧
    ((State.setReg (start 0 [0, 1, 0, 0, 8]) .esp 0).mem.wf = true ∧
      memOk (State.setReg (start 0 [0, 1, 0, 0, 8]) .esp 0) np at3000 (farSize false) .read = true ∧
      farCallOk (State.setReg (start 0 [0, 1, 0, 0, 8]) .esp 0) false
        (farSel (State.setReg (start 0 [0, 1, 0, 0, 8]) .esp 0) np at3000) = true) := by decide

/-- SelectorLoadedReadsBack: a load from a descriptor, a null one, and a register not loaded. -/
theorem wit_readsBack :
    (loadTarget (.popEs np) = some .es ∧ loadSel (start 0 [0x10]) (.popEs np) = some 0x10 ∧
      ∃ t, exec (.popEs np) (start 0 [0x10]) = .next t) ∧
    (loadSel (start 0 [3]) (.popEs np) = some 3 ∧ ∃ t, exec (.popEs np) (start 0 [3]) = .next t) ∧
    loadTarget (.popEs np) ≠ some .cs :=
  ⟨⟨rfl, by decide, next_of_goesOn (by decide)⟩, ⟨by decide, next_of_goesOn (by decide)⟩, by decide⟩

/-- AccessedBitSetByLoadsAndTests: L1 and S1. -/
theorem wit_accessed : isNull 0x10 = false ∧ descS (namedDesc (start 0 []) 0x10).d4 = true ∧
    (∃ t, loadSeg (start 0 []) .ds 0x10 = .ok t) ∧ ∃ t, selTest (start 0 []) 0x10 = .ok t :=
  ⟨by decide, by decide, ⟨_, rfl⟩, _, rfl⟩

/-- ReloadChangesNothing: L1 twice (L4), the accessed bit set by the first. -/
theorem wit_reload : loadOk (start 0 []) .ds 0x10 = true ∧
    ∃ t, loadSeg (start 0 []) .ds 0x10 = .ok t ∧ loadOk t .ds 0x10 = true :=
  ⟨by decide, _, rfl, by decide⟩

/-- LgdtLoadsGdtr and SgdtStoresGdtr, at the last six offsets. -/
theorem wit_gdt : memOk (start 0 []) np (.abs 0xFFFFFFFA) 6 .read = true ∧ (start 0 []).mem.wf = true ∧
    memOk (start 0 []) np (.abs 0xFFFFFFFA) 6 .write = true := by decide

/-- LldtFillsLdtr, LldtNullLeavesNoTable (TI set, index zero). -/
theorem wit_lldt :
    (rmOk (withLdtEntry (start 0x20 [])) np (.reg .eax) = true ∧
      lldtOk (withLdtEntry (start 0x20 [])) (rmVal (withLdtEntry (start 0x20 [])) np (.reg .eax)) = true) ∧
    (rmOk (start 7 []) np (.reg .eax) = true ∧ isNull (tiCleared (rmVal (start 7 []) np (.reg .eax))) = true) := by decide

/-- LldtFaultsInOrder: entry 4 with a limit one too small; V7 under a ProtCheck that answers violation; V1 and a not-present
format 1 descriptor, which ProtCheck at reset does not name for LLDT; entry 4 = V7 with P clear. -/
theorem wit_lldtFaults :
    (isNull (tiCleared 0x20) = false ∧ inTable { base := 0x1000, limit := 0x26 } 0x20 = false) ∧
    (let s := { withLdtEntry (start 0x20 []) with prot := always .violation };
      rmOk s np (.reg .eax) = true ∧ rmVal s np (.reg .eax) = 0x20 ∧ inTable s.gdtr 0x20 = true ∧
      s.prot.load .ldtr 0x20 (descAt s.mem (entryAddr s.gdtr 0x20)).d0 (descAt s.mem (entryAddr s.gdtr 0x20)).d4
        = .violation) ∧
    (let s := start 0x10 [];
      rmOk s np (.reg .eax) = true ∧ rmVal s np (.reg .eax) = 0x10 ∧ isNull (tiCleared 0x10) = false ∧
      inTable s.gdtr 0x10 = true ∧
      s.prot.load .ldtr 0x10 (descAt s.mem (entryAddr s.gdtr 0x10)).d0 (descAt s.mem (entryAddr s.gdtr 0x10)).d4
        = .notNamed) ∧
    (let s := withNotPresent (start 0x20 []);
      rmVal s np (.reg .eax) = 0x20 ∧ inTable s.gdtr 0x20 = true ∧
      s.prot.load .ldtr 0x20 (descAt s.mem (entryAddr s.gdtr 0x20)).d0 (descAt s.mem (entryAddr s.gdtr 0x20)).d4
        = .notNamed) ∧
    (let s := { withLdtEntry (start 0x20 []) with mem := writeBytes tables 0x1020 [0x3F, 0, 0, 0, 2, 0x02] };
      rmOk s np (.reg .eax) = true ∧ isNull (tiCleared (rmVal s np (.reg .eax))) = false ∧
      inTable s.gdtr (rmVal s np (.reg .eax)) = true ∧
      s.prot.load .ldtr (rmVal s np (.reg .eax)) (descAt s.mem (entryAddr s.gdtr (rmVal s np (.reg .eax)))).d0
        (descAt s.mem (entryAddr s.gdtr (rmVal s np (.reg .eax)))).d4 = .pass ∧
      descP (descAt s.mem (entryAddr s.gdtr (rmVal s np (.reg .eax)))).d4 = false) := by decide

/-- SldtDeliversLdtr and MovReadsSegmentRegister, memory forms. -/
theorem wit_write16 : (start 0 []).mem.wf = true ∧ memOk (start 0 []) np at3000 2 .write = true := by decide

/-- TableLoadsKeepTranslations: LGDT and LLDT that go on. -/
theorem wit_tableLoads : (∃ t, exec (.lgdt np at3000) (start 0 [0x17, 0, 0, 0x10]) = .next t) ∧
    ∃ t, exec (.lldt np (.reg .eax)) (withLdtEntry (start 0x20 [])) = .next t :=
  ⟨next_of_goesOn (by decide), next_of_goesOn (by decide)⟩

/-- LarLslSetAccessedBit (a 16-bit operand size too) and VerrVerwSetAccessedBit. -/
theorem wit_selTest : rmOk (start 0x10 []) p16 (.reg .eax) = true ∧
    selTestOk (start 0x10 []) (rmVal (start 0x10 []) p16 (.reg .eax)) = true := by decide

/-- SelectorTestsRefuseOtherCases: S3's four. -/
theorem wit_selTestRefused :
    isNull (rmVal (start 0 []) np (.reg .eax)) = true ∧
    (isNull (rmVal (start 0x20 []) np (.reg .eax)) = false ∧
      inTable (tableOf (start 0x20 []) (rmVal (start 0x20 []) np (.reg .eax))) (rmVal (start 0x20 []) np (.reg .eax))
        = false) ∧
    (names (start 0x18 []) (rmVal (start 0x18 []) np (.reg .eax)) = true ∧
      descP (namedDesc (start 0x18 []) (rmVal (start 0x18 []) np (.reg .eax))).d4 = false) ∧
    (names (withLdtEntry (start 0 [])) 0x20 = true ∧ descP (namedDesc (withLdtEntry (start 0 [])) 0x20).d4 = true ∧
      descS (namedDesc (withLdtEntry (start 0 [])) 0x20).d4 = false ∧
      rmVal (withLdtEntry (start 0x20 [])) np (.reg .eax) = 0x20) := by decide

/-- PushWritesSelectorToStack, both item sizes, and ESP 0. -/
theorem wit_push : (start 0 []).mem.wf = true ∧
    refOk (start 0 []) .ss ((start 0 []).reg .esp - 4) (itemSize false) .write = true ∧
    refOk (start 0 []) .ss (0 - 2) (itemSize true) .write = true := by decide

/-- NullSegmentReferenceRaises, CS included. -/
theorem wit_nullReference : isNull ((nulled (start 0 []) .cs).segReg .cs).sel = true := by decide

/-- NullSegmentOperandRaises: LSS through a null DS; POP ES, PUSH CS and both forms of far CALL with a null SS. -/
theorem wit_nullOperand :
    (isNull ((nulled (start 0 []) .ds).segReg (MemOp.seg np at3000)).sel = true ∧
      Instr.lss np .ebx at3000 ∈ [Instr.lgdt np at3000, .lss np .ebx at3000]) ∧
    isNull ((nulled (start 0 []) .ss).segReg .ss).sel = true ∧
    (∃ i, ofPop np .es = .ok i) ∧ Instr.pushCs np = ofPush np .cs ∧
    (loadSel (nulled (start 0 []) .ss) (.callPtr np 0 0x08) = some 0x08 ∧
      loadOk (nulled (start 0 []) .ss) .cs 0x08 = true ∧ descS (namedDesc (nulled (start 0 []) .ss) 0x08).d4 = true) ∧
    (loadSel (nulled (start 0 [0, 1, 0, 0, 8]) .ss) (.callMem np at3000) = some 0x08 ∧
      loadOk (nulled (start 0 [0, 1, 0, 0, 8]) .ss) .cs 0x08 = true ∧
      descS (namedDesc (nulled (start 0 [0, 1, 0, 0, 8]) .ss) 0x08).d4 = true) :=
  ⟨by decide, by decide, ⟨_, rfl⟩, rfl, by decide, by decide⟩

/-- SegmentRegisterChangesOnlyByLoad, TableRegistersChangeOnlyByTheirLoads, FlagsChangeOnlyBySelectorTests: instructions
that go on, a load and a selector test. -/
theorem wit_wholeMachine :
    ((∃ t, exec (.popEs np) (start 0 [0x10]) = .next t) ∧ loadTarget (.popEs np) ≠ some .ds) ∧
    ∃ t, exec (.lar np .ecx (.reg .eax)) (start 0x10 []) = .next t :=
  ⟨⟨next_of_goesOn (by decide), by decide⟩, next_of_goesOn (by decide)⟩

/-- MOV DS, AX at CS:EIP (95 P1 step 2). -/
def movAtCs : State := { start 0x10 [] with mem := writeBytes tables 0xFFF0 [0x8E, 0xD8] }

/-- StepKeepsProtCheck and StepKeepsInvariant. -/
theorem wit_step : movAtCs.Inv ∧ ∃ t, step movAtCs = .next t :=
  ⟨⟨by decide, by decide, by decide, fun r _ => by cases r <;> decide⟩, next_of_goesOn (by decide)⟩

/-- DecodeOfEncode: a well-formed term with every kind of byte. -/
theorem wit_encode : Instr.wf (.lds ⟨true, false, some .gs⟩ .edi (.sib .esp .ebp 3 (.d32 0x80000001))) = true := by decide

/-- DecodedIsWellFormed. -/
theorem wit_decode : ∃ i rest, decode [0x0F, 0xA8, 0x99] = .ok (i, rest) := ⟨_, _, rfl⟩

/-- StepRunsTheDecodedInstruction and StepRunsTheEncodedInstruction: MOV DS, AX at CS:EIP. -/
theorem wit_stepRuns :
    (∃ rest, decode (fetchWindow movAtCs) = .ok (.movToSreg np .ds (.reg .eax), rest)) ∧
    refOk movAtCs .cs movAtCs.eip 2 .execute = true ∧ Instr.wf (.movToSreg np .ds (.reg .eax)) = true ∧
    readBytes movAtCs.mem (fetchAddr movAtCs) 2 = encode (.movToSreg np .ds (.reg .eax)) :=
  ⟨⟨_, rfl⟩, by decide, by decide, by decide⟩

/-- MOV DS, AX at the last offset of CS, its second byte past it. -/
def movAtTop : State :=
  { start 0x10 [] with mem := writeBytes tables 0xFFFFFFFF [0x8E, 0xD8], eip := 0xFFFFFFFF }

/-- FetchStops: a null CS; zeros at CS:EIP, an opcode outside the table; MOV DS, AX at the last offset, and at CS:EIP under a
ProtCheck that answers violation, and under one that names nothing. -/
theorem wit_fetchStops : isNull ((nulled (start 0 []) .cs).segReg .cs).sel = true ∧
    (isNull ((start 0 []).segReg .cs).sel = false ∧ ∃ e, decode (fetchWindow (start 0 [])) = .error e) ∧
    (isNull (movAtTop.segReg .cs).sel = false ∧
      (okOf (decode (fetchWindow movAtTop))).map (fun x => 15 - x.2.length) = some 2 ∧
      2 ^ 32 < movAtTop.eip.toNat + 2) ∧
    (isNull (movAtCs.segReg .cs).sel = false ∧
      (okOf (decode (fetchWindow { movAtCs with prot := always .violation }))).map (fun x => 15 - x.2.length) = some 2 ∧
      movAtCs.eip.toNat + 2 ≤ 2 ^ 32 ∧
      (always .violation).reference .cs (movAtCs.segReg .cs) movAtCs.eip 2 .execute = .violation) ∧
    (always .notNamed).reference .cs (movAtCs.segReg .cs) movAtCs.eip 2 .execute = .notNamed :=
  ⟨by decide, ⟨by decide, _, rfl⟩, by decide, by decide, by decide⟩

/-- PlacedInstructionRunsFromReset. -/
theorem wit_placed : ∃ i rest, decode (tableWindow 16 0x8ED8) = .ok (i, rest) := ⟨_, _, rfl⟩

end Sys2Proof.Tests
end

section
/-! What one executed instruction can do to the system registers, said once for all 29, and the statements about the
registers and selectors of spec/10_state.md. -/

namespace Sys2Proof.Machine

/-! ## Selectors (R10, R11) -/

theorem selIndex_toNat (sel : Half) : (selIndex sel).toNat = sel.toNat / 8 := by
  rw [selIndex, BitVec.extractLsb'_toNat, Nat.shiftRight_eq_div_pow]
  omega

theorem selTi_toNat (sel : Half) : (selTi sel).toNat = sel.toNat / 4 % 2 := by
  rw [selTi, BitVec.extractLsb'_toNat, Nat.shiftRight_eq_div_pow]

theorem selRpl_toNat (sel : Half) : (selRpl sel).toNat = sel.toNat % 4 := by
  rw [selRpl, BitVec.extractLsb'_toNat, Nat.shiftRight_zero]

/-- Settles O1, field by field. -/
theorem selectorFieldsByBits : Obligations.SelectorFieldsByBits :=
  fun sel => ⟨selIndex_toNat sel, selTi_toNat sel, selRpl_toNat sel⟩

theorem isNull_iff (sel : Half) : isNull sel = true ↔ selIndex sel = 0 ∧ selTi sel = 0 := by
  rw [isNull, Bool.and_eq_true, beq_iff_eq, beq_iff_eq]

/-- Index and table indicator are the selector divided by 4, so both are zero exactly below 4. -/
theorem isNull_iff_lt_four (sel : Half) : isNull sel = true ↔ sel.toNat < 4 := by
  rw [isNull_iff, ← BitVec.toNat_inj, ← BitVec.toNat_inj, selIndex_toNat, selTi_toNat]
  simp only [BitVec.ofNat_eq_ofNat, BitVec.toNat_zero]
  omega

/-- Settles O2, from the definition and from the fields as numbers. -/
theorem nullSelectorIffIndexAndTiZero : Obligations.NullSelectorIffIndexAndTiZero :=
  fun sel => ⟨isNull_iff sel, isNull_iff_lt_four sel⟩

/-! ## Translation (R9) -/

/-- Settles O9: `Translate` looks at its state only through `segReg r` and ProtCheck. -/
theorem translateReadsOnlyItsSegmentRegister : Obligations.TranslateReadsOnlyItsSegmentRegister := by
  intro s t r off n k hseg hprot
  simp only [translate, hseg, hprot]

/-! ## What an instruction leaves of the system registers -/

theorem segReg_of_seg_eq {s t : State} (h : t.seg = s.seg) (r : SegName) : t.segReg r = s.segReg r := by
  rw [State.segReg, State.segReg, h]

/-- Nothing of the system state differs: the segment registers, all that `SameTables` speaks of and EFLAGS are kept, and
memory stays canonical. What may differ is general registers, EIP, memory and the free counter. -/
structure SystemKept (s t : State) : Prop where
  seg : t.seg = s.seg
  tables : SameTables s t
  eflags : t.eflags = s.eflags
  wf : s.mem.wf = true → t.mem.wf = true

theorem SameTables.refl (s : State) : SameTables s s := ⟨rfl, rfl, rfl, rfl, rfl⟩

theorem SameTables.trans {s t u : State} (h : SameTables s t) (h' : SameTables t u) : SameTables s u := by
  obtain ⟨hg, hl, hls, hsd, hp⟩ := h
  obtain ⟨hg', hl', hls', hsd', hp'⟩ := h'
  exact ⟨hg'.trans hg, hl'.trans hl, hls'.trans hls, hsd'.trans hsd, hp'.trans hp⟩

theorem SameTables.tableRegs {s t : State} (h : SameTables s t) :
    t.gdtr = s.gdtr ∧ t.ldtr = s.ldtr ∧ t.ldtrSel = s.ldtrSel := by
  obtain ⟨hgdtr, hldtr, hsel, _, _⟩ := h
  exact ⟨hgdtr, hldtr, hsel⟩

namespace SystemKept

theorem refl (s : State) : SystemKept s s := ⟨rfl, .refl s, rfl, id⟩

theorem trans {s t u : State} (h : SystemKept s t) (h' : SystemKept t u) : SystemKept s u :=
  ⟨h'.seg.trans h.seg, h.tables.trans h'.tables, h'.eflags.trans h.eflags, h'.wf ∘ h.wf⟩

theorem segReg {s t : State} (h : SystemKept s t) (r : SegName) : t.segReg r = s.segReg r :=
  segReg_of_seg_eq h.seg r

theorem setReg (s : State) (r : Reg) (v : Word) : SystemKept s (s.setReg r v) :=
  ⟨rfl, ⟨rfl, rfl, rfl, rfl, rfl⟩, rfl, id⟩

theorem setEip (s : State) (v : Word) : SystemKept s (s.setEip v) :=
  ⟨rfl, ⟨rfl, rfl, rfl, rfl, rfl⟩, rfl, id⟩

theorem freeReg (s : State) (op16 : Bool) (g : Reg) : SystemKept s (freeReg s op16 g) :=
  ⟨rfl, ⟨rfl, rfl, rfl, rfl, rfl⟩, rfl, id⟩

theorem of_pushSel {s t : State} {op16 : Bool} {sel : Half} (h : pushSel s op16 sel = .ok t) : SystemKept s t := by
  obtain ⟨hseg, htab, hfl, _, hwf⟩ := pushSel_keeps h
  exact ⟨hseg, htab, hfl, hwf⟩

theorem of_pushOff {s t : State} {op16 : Bool} {v : Word} (h : pushOff s op16 v = .ok t) : SystemKept s t := by
  obtain ⟨hseg, htab, hfl, _, hwf⟩ := push_keeps h
  exact ⟨hseg, htab, hfl, hwf⟩

theorem of_writeRM16 {s t : State} {p : Prefixes} {rm : RM} {v : Half} (h : writeRM16 s p rm v = .ok t) :
    SystemKept s t := by
  obtain ⟨hseg, htab, hfl, _, hwf⟩ := writeRM16_keeps h
  exact ⟨hseg, htab, hfl, hwf⟩

theorem of_writeTable {s t : State} {p : Prefixes} {m : MemOp} {v : TableReg} (h : writeTable s p m v = .ok t) :
    SystemKept s t := by
  obtain ⟨_, rfl⟩ := writeTable_eq_ok.mp h
  exact ⟨rfl, ⟨rfl, rfl, rfl, rfl, rfl⟩, rfl, memWrite_wf⟩

theorem of_selTest {s t : State} {sel : Half} (h : selTest s sel = .ok t) : SystemKept s t := by
  obtain ⟨_, rfl⟩ := selTest_eq_ok.mp h
  exact ⟨rfl, ⟨rfl, rfl, rfl, rfl, rfl⟩, rfl, setAccessed_wf⟩

end SystemKept

/-- LAR, LSL, VERR and VERW, the selector tests (R80). -/
def IsSelTest (i : Instr) : Prop :=
  ∃ p g rm, i = .lar p g rm ∨ i = .lsl p g rm ∨ i = .verr p rm ∨ i = .verw p rm

theorem IsSelTest.loadTarget_eq_none {i : Instr} (h : IsSelTest i) : loadTarget i = none := by
  obtain ⟨p, g, rm, rfl | rfl | rfl | rfl⟩ := h <;> rfl

/-- The ways an instruction that answers a next state can act on the system state. -/
inductive ExecCase (s : State) : Instr → State → Prop where
  /-- `LoadSeg` of the selector the instruction loads, then nothing of the system state (R71 to R78). -/
  | load {i : Instr} {r : SegName} {sel : Half} {u t : State} (htarget : loadTarget i = some r)
      (hsel : loadSel s i = some sel) (hload : loadSeg s r sel = .ok u) (hkept : SystemKept u t) : ExecCase s i t
  /-- GDTR loaded (R66). -/
  | lgdt (p : Prefixes) (m : MemOp) (v : TableReg) : ExecCase s (.lgdt p m) (setGdtr s v.base v.limit)
  /-- LDTR loaded (R68). -/
  | lldt {p : Prefixes} {rm : RM} {sel : Half} {t : State} (hload : loadLdtr s sel = .ok t) : ExecCase s (.lldt p rm) t
  /-- LDTR's pair to the abstract destination (R69). -/
  | sldt {p : Prefixes} {rm : RM} {t : State} (hkept : SystemKept { s with sldtDst := s.ldtr } t) :
      ExecCase s (.sldt p rm) t
  /-- The selector test and a free ZF (R80). -/
  | selTest {i : Instr} {sel : Half} {u t : State}
      (hi : IsSelTest i) (htest : selTest s sel = .ok u) (hkept : SystemKept (freeZf u) t) : ExecCase s i t
  /-- Every other instruction: nothing of the system state. -/
  | kept {i : Instr} {t : State} (htarget : loadTarget i = none) (hkept : SystemKept s t) : ExecCase s i t

theorem loadSeg_of_loadCsFar {s t : State} {sel : Half} (h : loadCsFar s sel = .ok t) : loadSeg s .cs sel = .ok t := by
  obtain ⟨hok, _, rfl⟩ := loadCsFar_eq_ok.mp h
  exact loadSeg_eq_ok.mpr (.inr ⟨hok, rfl⟩)

namespace ExecCase

variable {s t : State} {i : Instr}

theorem of_popSeg {op16 : Bool} {r : SegName} (htarget : loadTarget i = some r)
    (hsel : loadSel s i = if stackOk s op16 then some (stackSel s) else none) (h : popSeg s op16 r = .ok t) :
    ExecCase s i t := by
  obtain ⟨hok, u, hload, rfl⟩ := popSeg_eq_ok.mp h
  exact .load htarget (hsel.trans (if_pos hok)) hload (.setReg u _ _)

theorem of_loadPointer {p : Prefixes} {r : SegName} {g : Reg} {m : MemOp} (htarget : loadTarget i = some r)
    (hsel : loadSel s i = if memOk s p m (farSize p.op16) .read then some (farSel s p m) else none)
    (h : loadPointer s p r g m = .ok t) : ExecCase s i t := by
  obtain ⟨hok, u, hload, rfl⟩ := loadPointer_eq_ok.mp h
  exact .load htarget (hsel.trans (if_pos hok)) hload (.setReg u _ _)

theorem of_jmpFar {sel : Half} {off : Word} (htarget : loadTarget i = some .cs) (hsel : loadSel s i = some sel)
    (h : jmpFar s sel off = .ok t) : ExecCase s i t := by
  obtain ⟨hok, _, rfl⟩ := jmpFar_eq_ok.mp h
  exact .load htarget hsel (loadSeg_eq_ok.mpr (.inr ⟨hok, rfl⟩)) (.setEip _ off)

theorem of_callFar {op16 : Bool} {sel : Half} {off : Word} (htarget : loadTarget i = some .cs)
    (hsel : loadSel s i = some sel) (h : callFar s op16 sel off = .ok t) : ExecCase s i t := by
  obtain ⟨u, v, w, hload, hpushSel, hpushOff, rfl⟩ := callFar_eq_ok.mp h
  have hkept : SystemKept u (w.setEip off) :=
    (SystemKept.of_pushSel hpushSel).trans ((SystemKept.of_pushOff hpushOff).trans (.setEip w off))
  exact .load htarget hsel (loadSeg_of_loadCsFar hload) hkept

/-- A far transfer through memory loads the selector of the pointer it reads. -/
theorem of_readFar {p : Prefixes} {m : MemOp} {f : Word × Half → Result State}
    (hsel : loadSel s i = if memOk s p m (farSize p.op16) .read then some (farSel s p m) else none)
    (h : (readFar s p m >>= f) = .ok t)
    (hf : ∀ off sel, loadSel s i = some sel → f (off, sel) = .ok t → ExecCase s i t) : ExecCase s i t := by
  obtain ⟨⟨off, sel⟩, hread, hgo⟩ := bind_eq_ok.mp h
  obtain ⟨hok, _, rfl⟩ := readFar_eq_ok.mp hread
  exact hf off _ (hsel.trans (if_pos hok)) hgo

theorem of_testOperand {p : Prefixes} {rm : RM} {u : State}
    (hi : IsSelTest i)
    (h : testOperand s p rm = .ok u) (hkept : SystemKept u t) : ExecCase s i t := by
  obtain ⟨_, hok, rfl⟩ := testOperand_eq_ok.mp h
  exact .selTest hi (selTest_eq_ok.mpr ⟨hok, rfl⟩) hkept

/-- LAR and LSL: the test, then a free value to the destination. -/
theorem of_testOperand_freeReg {p : Prefixes} {g : Reg} {rm : RM}
    (hi : IsSelTest i)
    (h : (testOperand s p rm >>= fun u => .ok (freeReg u p.op16 g)) = .ok t) : ExecCase s i t := by
  obtain ⟨u, htest, hgo⟩ := bind_eq_ok.mp h
  cases hgo
  exact of_testOperand hi htest (.freeReg u _ _)

theorem of_movToSreg {p : Prefixes} {r : SegName} {rm : RM} (h : exec (.movToSreg p r rm) s = .next t) :
    ExecCase s (.movToSreg p r rm) t := by
  have h := finish_eq_next.mp h
  split at h
  next => simp at h
  next hcs =>
    obtain ⟨sel, hread, hload⟩ := bind_eq_ok.mp h
    obtain ⟨hok, rfl⟩ := readRM16_eq_ok.mp hread
    exact .load rfl (if_pos ⟨hcs, hok⟩) hload (.refl t)

theorem of_lgdt {p : Prefixes} {m : MemOp} (h : exec (.lgdt p m) s = .next t) : ExecCase s (.lgdt p m) t := by
  obtain ⟨v, _, hgo⟩ := bind_eq_ok.mp (finish_eq_next.mp h)
  cases hgo
  exact .lgdt p m v

theorem of_lldt {p : Prefixes} {rm : RM} (h : exec (.lldt p rm) s = .next t) : ExecCase s (.lldt p rm) t := by
  obtain ⟨_, _, hload⟩ := bind_eq_ok.mp (finish_eq_next.mp h)
  exact .lldt hload

end ExecCase

/-- Every instruction that answers a next state acts on the system state in one of the ways of `ExecCase`. -/
theorem exec_cases {i : Instr} {s t : State} (h : exec i s = .next t) : ExecCase s i t := by
  cases i with
  | lgdt p m => exact .of_lgdt h
  | sgdt p m => exact .kept rfl (.of_writeTable (finish_eq_next.mp h))
  | lldt p rm => exact .of_lldt h
  | sldt p rm => exact .sldt (.of_writeRM16 (finish_eq_next.mp h))
  | movToSreg p r rm => exact .of_movToSreg h
  | popEs p => exact .of_popSeg rfl rfl (finish_eq_next.mp h)
  | popSs p => exact .of_popSeg rfl rfl (finish_eq_next.mp h)
  | popDs p => exact .of_popSeg rfl rfl (finish_eq_next.mp h)
  | popFs p => exact .of_popSeg rfl rfl (finish_eq_next.mp h)
  | popGs p => exact .of_popSeg rfl rfl (finish_eq_next.mp h)
  | lds p g m => exact .of_loadPointer rfl rfl (finish_eq_next.mp h)
  | lss p g m => exact .of_loadPointer rfl rfl (finish_eq_next.mp h)
  | lgs p g m => exact .of_loadPointer rfl rfl (finish_eq_next.mp h)
  | lfs p g m => exact .of_loadPointer rfl rfl (finish_eq_next.mp h)
  | callPtr p off sel => exact .of_callFar rfl rfl (finish_eq_next.mp h)
  | callMem p m => exact .of_readFar rfl (finish_eq_next.mp h) fun _ _ hsel hgo => .of_callFar rfl hsel hgo
  | jmpPtr p off sel => exact .of_jmpFar rfl rfl (finish_eq_next.mp h)
  | jmpMem p m => exact .of_readFar rfl (finish_eq_next.mp h) fun _ _ hsel hgo => .of_jmpFar rfl hsel hgo
  | lar p g rm => exact .of_testOperand_freeReg ⟨p, g, rm, .inl rfl⟩ (finish_eq_next.mp h)
  | lsl p g rm => exact .of_testOperand_freeReg ⟨p, g, rm, .inr (.inl rfl)⟩ (finish_eq_next.mp h)
  | verr p rm => exact .of_testOperand ⟨p, .eax, rm, .inr (.inr (.inl rfl))⟩ (finish_eq_next.mp h) (.refl t)
  | verw p rm => exact .of_testOperand ⟨p, .eax, rm, .inr (.inr (.inr rfl))⟩ (finish_eq_next.mp h) (.refl t)
  | movFromSreg p r rm => exact .kept rfl (.of_writeRM16 (finish_eq_next.mp h))
  | pushEs p => exact .kept rfl (.of_pushSel (finish_eq_next.mp h))
  | pushCs p => exact .kept rfl (.of_pushSel (finish_eq_next.mp h))
  | pushSs p => exact .kept rfl (.of_pushSel (finish_eq_next.mp h))
  | pushDs p => exact .kept rfl (.of_pushSel (finish_eq_next.mp h))
  | pushFs p => exact .kept rfl (.of_pushSel (finish_eq_next.mp h))
  | pushGs p => exact .kept rfl (.of_pushSel (finish_eq_next.mp h))

/-! ## Who changes a segment register and a table register (R6, R7, R8, R12, R13) -/

/-- LLDT's load changes LDTR, its selector and the free counter alone. -/
theorem loadLdtr_keeps {s t : State} {sel : Half} (h : loadLdtr s sel = .ok t) :
    t.seg = s.seg ∧ t.gdtr = s.gdtr ∧ t.prot = s.prot ∧ t.eflags = s.eflags ∧ t.mem = s.mem := by
  rcases loadLdtr_eq_ok.mp h with ⟨_, rfl⟩ | ⟨_, rfl⟩ <;> exact ⟨rfl, rfl, rfl, rfl, rfl⟩

/-- Settles O40: a load changes its own register alone, and no other way of `ExecCase` changes any. -/
theorem segmentRegisterChangesOnlyByLoad : Obligations.SegmentRegisterChangesOnlyByLoad := by
  intro i s t r h hr
  cases exec_cases h with
  | @load _ q _ _ _ htarget _ hload hkept =>
    have hne : r ≠ q := fun e => hr (htarget.trans (congrArg some e.symm))
    obtain ⟨_, hothers, _⟩ := loadSeg_keeps hload
    exact (hkept.segReg r).trans (hothers r hne)
  | lgdt => rfl
  | lldt hload => exact segReg_of_seg_eq (loadLdtr_keeps hload).1 r
  | sldt hkept => exact hkept.segReg r
  | selTest _ htest hkept => exact (hkept.segReg r).trans ((SystemKept.of_selTest htest).segReg r)
  | kept _ hkept => exact hkept.segReg r

/-- Settles O41: GDTR changes in the `lgdt` way alone, LDTR and its selector in the `lldt` way alone. -/
theorem tableRegistersChangeOnlyByTheirLoads : Obligations.TableRegistersChangeOnlyByTheirLoads := by
  intro i s t h
  cases exec_cases h with
  | load _ _ hload hkept =>
    obtain ⟨_, _, htables, _⟩ := loadSeg_keeps hload
    exact (htables.trans hkept.tables).tableRegs.imp (fun e _ => e) fun e _ => e
  | lgdt p m => exact ⟨fun hne => absurd rfl (hne p m), fun _ => ⟨rfl, rfl⟩⟩
  | lldt hload =>
    obtain ⟨_, hgdtr, _⟩ := loadLdtr_keeps hload
    exact ⟨fun _ => hgdtr, fun hne => absurd rfl (hne _ _)⟩
  | sldt hkept => exact hkept.tables.tableRegs.imp (fun e _ => e) fun e _ => e
  | selTest _ htest hkept =>
    exact ((SystemKept.of_selTest htest).tables.trans hkept.tables).tableRegs.imp (fun e _ => e) fun e _ => e
  | kept _ hkept => exact hkept.tables.tableRegs.imp (fun e _ => e) fun e _ => e

/-- The register an instruction loads holds, after it, the selector loaded. -/
theorem segReg_sel_of_loadSel {i : Instr} {s t : State} {r : SegName} {sel : Half} (h : exec i s = .next t)
    (hr : loadTarget i = some r) (hs : loadSel s i = some sel) : (t.segReg r).sel = sel := by
  cases exec_cases h with
  | load htarget hsel hload hkept =>
    obtain rfl := Option.some.inj (hr.symm.trans htarget)
    obtain rfl := Option.some.inj (hs.symm.trans hsel)
    obtain ⟨hread, _⟩ := loadSeg_keeps hload
    rw [hkept.segReg, hread]
  | lgdt => cases hr
  | lldt => cases hr
  | sldt => cases hr
  | selTest hi => cases hi.loadTarget_eq_none.symm.trans hr
  | kept htarget => cases htarget.symm.trans hr

theorem setWidth_lowHalf (w : Word) (v : Half) : (lowHalf w v).setWidth 16 = v := by
  rw [lowHalf, BitVec.setWidth_append_eq_right]

/-- MOV to a general register delivers the selector, all 16 bits of it, whatever it is (R7, R82). -/
theorem exec_movFromSreg_reg (p : Prefixes) (r : SegName) (g : Reg) (s : State) :
    ∃ u, exec (.movFromSreg p r (.reg g)) s = .next u ∧ (u.reg g).setWidth 16 = (s.segReg r).sel :=
  ⟨s.setReg g (lowHalf (s.reg g) (s.segReg r).sel), rfl, by rw [reg_setReg_same, setWidth_lowHalf]⟩

/-- Settles O23: O40 for the registers not loaded, and for the one loaded the load's selector, moved out by MOV. -/
theorem selectorLoadedReadsBack : Obligations.SelectorLoadedReadsBack := by
  intro i s t r h
  constructor
  · intro hr
    exact congrArg SegReg.sel (segmentRegisterChangesOnlyByLoad i s t r h hr)
  · intro sel p g hr hs
    rw [← segReg_sel_of_loadSel h hr hs]
    exact exec_movFromSreg_reg p r g t

/-! ## Reset and the first instruction (R18, R100) -/

/-- Settles O44: memory is empty, and each register's selector and hidden part is a fixed value. -/
theorem resetMeetsInvariant : Obligations.ResetMeetsInvariant := by
  refine ⟨rfl, by decide, by decide, fun r _ => ?_⟩
  cases r <;> decide

/-- Bytes put elsewhere leave a byte alone. -/
theorem read_writeBytes_outside {m : Memory} {a : Word} {bs : List Byte} {x : Nat}
    (h : ∀ i, i < bs.length → x ≠ (a + BitVec.ofNat 32 i).toNat) : (writeBytes m a bs).read x = m.read x := by
  induction bs generalizing m a with
  | nil => rfl
  | cons b bs ih =>
    have hhead : x ≠ a.toNat := by simpa using h 0 (Nat.succ_pos _)
    rw [writeBytes, ih, Memory.read_write_ne hhead]
    intro i hi
    rw [word_add_one_add]
    exact h (i + 1) (Nat.succ_lt_succ hi)

/-- The addresses after `a` are not `a`, short of once around the address space. -/
theorem toNat_ne_add_one_add {a : Word} {i : Nat} (h : i + 1 < 2 ^ 32) :
    a.toNat ≠ (a + 1 + BitVec.ofNat 32 i).toNat := by
  rw [word_add_one_add, BitVec.toNat_add, BitVec.toNat_ofNat]
  have := a.isLt
  omega

/-- Bytes put into a canonical memory read back. -/
theorem readBytes_writeBytes_same {m : Memory} {a : Word} {bs : List Byte} (hm : m.wf = true)
    (hn : bs.length ≤ 2 ^ 32) : readBytes (writeBytes m a bs) a bs.length = bs := by
  induction bs generalizing m a with
  | nil => rfl
  | cons b bs ih =>
    rw [List.length_cons] at hn
    have hhead : (writeBytes (m.write a.toNat b) (a + 1) bs).read a.toNat = b := by
      rw [read_writeBytes_outside fun i hi => toNat_ne_add_one_add (by omega)]
      exact Memory.read_write_same hm
    rw [List.length_cons, readBytes, writeBytes, hhead, ih (Memory.wf_write a b hm) (by omega)]

theorem tableWindow_length (nbits w : Nat) : (tableWindow nbits w).length = Config.maxInstrBytes := by
  simp [tableWindow]

/-- What is placed for the next fetch is what it reads (log 36). -/
theorem fetchWindow_withFetchWord {s : State} (hm : s.mem.wf = true) (nbits w : Nat) :
    fetchWindow (s.withFetchWord nbits w) = tableWindow nbits w := by
  have h := readBytes_writeBytes_same (a := fetchAddr s) (bs := tableWindow nbits w) hm
    (by rw [tableWindow_length]; decide)
  rw [tableWindow_length] at h
  exact h

theorem Pattern.fits_any {n : Nat} (v : BitVec n) : Pattern.any.fits v = true := by
  simp [Pattern.fits, Pattern.any]

/-- ProtCheck at reset passes every reference that ends within the limit (log 10). -/
theorem reference_reset {r : SegName} {v : SegReg} {off : Word} {n : Nat} {k : RefKind}
    (h : off.toNat + n ≤ v.hid.limit.toNat + 1) : ProtCheck.reset.reference r v off n k = .pass := by
  have hr : [SegName.cs, .ss, .ds, .es, .fs, .gs].contains r = true := by cases r <;> decide
  have hk : [RefKind.read, .write, .execute].contains k = true := by cases k <;> decide
  simp only [ProtCheck.reference, ProtCheck.reset, List.find?_cons, RefRule.fits, Bound.fits, Pattern.fits_any, hr, hk,
    h, beq_self_eq_true, Bool.true_or, Bool.and_true, decide_true]

/-- At reset every reference whose offsets do not wrap goes through: each register's limit is 0xFFFFFFFF (log 7). -/
theorem refOk_reset {r : SegName} {off : Word} {n : Nat} {k : RefKind} (h : off.toNat + n ≤ 2 ^ 32) :
    refOk State.reset r off n k = true := by
  have hnull : isNull (State.reset.segReg r).sel = false := by cases r <;> decide
  have hlimit : (State.reset.segReg r).hid.limit.toNat + 1 = 2 ^ 32 := by cases r <;> rfl
  have hprot : State.reset.prot.reference r (State.reset.segReg r) off n k = .pass := reference_reset (hlimit ▸ h)
  rw [refOk, hnull, hprot, decide_eq_true h]
  rfl

/-- Settles O52: the fetch reads the word placed, and reset's ProtCheck passes the execute reference to its bytes. -/
theorem placedInstructionRunsFromReset : Obligations.PlacedInstructionRunsFromReset := by
  intro nbits w i rest hdec
  have hnull : isNull (State.reset.segReg .cs).sel = false := by decide
  have hwin : decode (fetchWindow (State.reset.withFetchWord nbits w)) = .ok (i, rest) := by
    rw [fetchWindow_withFetchWord rfl, hdec]
  have hend : State.reset.eip.toNat + (Config.maxInstrBytes - rest.length) ≤ 2 ^ 32 :=
    calc State.reset.eip.toNat + (Config.maxInstrBytes - rest.length)
      _ ≤ 0xFFF0 + 15 := Nat.add_le_add_left (Nat.sub_le _ _) _
      _ ≤ 2 ^ 32 := by decide
  exact step_of_fetch (fetch_eq_ok.mpr ⟨hnull, rest, hwin, rfl, refOk_reset hend⟩)

end Sys2Proof.Machine
end

section
/-! Descriptors, memory reads and translation: the statements about spec/20_memory.md's own operations, each from the
operation's value as a number or as a bit slice. -/

namespace Sys2Proof.Machine

/-! ## The fields of a descriptor as numbers (R29 to R32) -/

theorem toNat_append_eq_add {m n : Nat} (x : BitVec m) (y : BitVec n) :
    (x ++ y).toNat = x.toNat * 2 ^ n + y.toNat := by
  rw [BitVec.toNat_append, ← Nat.shiftLeft_add_eq_or_of_lt y.isLt, Nat.shiftLeft_eq]

theorem descBase_toNat (d0 d4 : Word) :
    (descBase d0 d4).toNat = d4.toNat / 2 ^ 24 * 2 ^ 24 + d4.toNat % 2 ^ 8 * 2 ^ 16 + d0.toNat / 2 ^ 16 := by
  simp only [descBase, toNat_append_eq_add, BitVec.extractLsb'_toNat, Nat.shiftRight_eq_div_pow]
  omega

theorem descLimit20_toNat (d0 d4 : Word) :
    (descLimit20 d0 d4).toNat = d4.toNat / 2 ^ 16 % 2 ^ 4 * 2 ^ 16 + d0.toNat % 2 ^ 16 := by
  simp only [descLimit20, toNat_append_eq_add, BitVec.extractLsb'_toNat, Nat.shiftRight_eq_div_pow]
  omega

theorem descEffLimit_toNat_of_bytes {d0 d4 : Word} (hg : descG d4 = false) :
    (descEffLimit d0 d4).toNat = (descLimit20 d0 d4).toNat := by
  have := (descLimit20 d0 d4).isLt
  rw [descEffLimit, hg, if_neg Bool.false_ne_true, BitVec.toNat_setWidth]
  omega

theorem descEffLimit_toNat_of_scaled {d0 d4 : Word} (hg : descG d4 = true) :
    (descEffLimit d0 d4).toNat = (descLimit20 d0 d4).toNat * 2 ^ 12 + 0xFFF := by
  rw [descEffLimit, if_pos hg]
  exact toNat_append_eq_add _ _

/-- Bits of D4 outside its two fragments of the base have no effect on the base. -/
theorem descBase_xor {d0 d4 x : Word} (hhigh : x.extractLsb' 24 8 = 0) (hlow : x.extractLsb' 0 8 = 0) :
    descBase d0 (d4 ^^^ x) = descBase d0 d4 := by
  simp only [descBase, BitVec.extractLsb'_xor, hhigh, hlow, BitVec.ofNat_eq_ofNat, BitVec.xor_zero]

theorem linear_zero (s : State) (r : SegName) : linear s r 0 = (s.segReg r).hid.base := BitVec.add_zero _

/-- Settles O4: the fragments as digits of one number, and offset 0 added to a base. -/
theorem baseIsThreeFragments : Obligations.BaseIsThreeFragments :=
  fun d0 d4 => ⟨descBase_toNat d0 d4, rfl, fun s r hbase => (linear_zero s r).trans hbase⟩

/-- Settles O5: the limit as a number for each setting of G, and bit 23 is in no fragment of the base. -/
theorem effectiveLimitScaledByG : Obligations.EffectiveLimitScaledByG :=
  fun d0 d4 => ⟨descLimit20_toNat d0 d4, descEffLimit_toNat_of_bytes, descEffLimit_toNat_of_scaled,
    descBase_xor (by decide) (by decide), rfl⟩

/-! ## The fields of a descriptor as slices (R29, R30, R41) -/

theorem descBase_extract_low (d0 d4 : Word) : (descBase d0 d4).extractLsb' 0 16 = d0.extractLsb' 16 16 :=
  BitVec.extractLsb'_append_eq_right

theorem descBase_extract_mid (d0 d4 : Word) : (descBase d0 d4).extractLsb' 16 8 = d4.extractLsb' 0 8 :=
  (BitVec.extractLsb'_append_eq_of_le (by decide)).trans BitVec.extractLsb'_append_eq_right

theorem descBase_extract_high (d0 d4 : Word) : (descBase d0 d4).extractLsb' 24 8 = d4.extractLsb' 24 8 :=
  (BitVec.extractLsb'_append_eq_of_le (by decide)).trans BitVec.extractLsb'_append_eq_left

theorem descLimit20_extract_low (d0 d4 : Word) : (descLimit20 d0 d4).extractLsb' 0 16 = d0.extractLsb' 0 16 :=
  BitVec.extractLsb'_append_eq_right

theorem descLimit20_extract_high (d0 d4 : Word) : (descLimit20 d0 d4).extractLsb' 16 4 = d4.extractLsb' 16 4 :=
  BitVec.extractLsb'_append_eq_left

theorem descAttrs_extract_low (d4 : Word) : (descAttrs d4).extractLsb' 0 8 = d4.extractLsb' 8 8 :=
  BitVec.extractLsb'_append_eq_right

theorem descAttrs_extract_high (d4 : Word) : (descAttrs d4).extractLsb' 8 4 = d4.extractLsb' 20 4 :=
  BitVec.extractLsb'_append_eq_left

/-- Settles O6: each slice of a field is a slice of D0 or D4, and adjacent slices join. -/
theorem fieldsRebuildTheDescriptor : Obligations.FieldsRebuildTheDescriptor := by
  intro d0 d4
  rw [descBase_extract_low, descBase_extract_mid, descBase_extract_high, descLimit20_extract_low,
    descLimit20_extract_high, descAttrs_extract_low, descAttrs_extract_high]
  constructor
  · exact BitVec.extractLsb'_append_extractLsb'
  · iterate 4 rw [BitVec.extractLsb'_append_extractLsb'_eq_extractLsb' (by rfl)]
    exact BitVec.extractLsb'_eq_self

/-! ## Where a descriptor lies (R24, R25) -/

theorem entryAddr_toNat (t : TableReg) (sel : Half) :
    (entryAddr t sel).toNat = (t.base.toNat + 8 * (selIndex sel).toNat) % 2 ^ 32 := by
  have := (selIndex sel).isLt
  simp only [entryAddr, BitVec.toNat_add, BitVec.toNat_mul, BitVec.toNat_setWidth, BitVec.ofNat_eq_ofNat,
    BitVec.toNat_ofNat]
  omega

/-- A selector with its three low bits cleared is its index with three zeros after it. -/
theorem and_fff8_eq_append (sel : Half) : sel &&& 0xFFF8 = selIndex sel ++ 0#3 :=
  calc sel &&& 0xFFF8
    _ = (selIndex sel ++ sel.extractLsb' 0 3) &&& (BitVec.allOnes 13 ++ 0#3) :=
      congrArg (· &&& 0xFFF8) (BitVec.extractLsb'_append_extractLsb' (w := 13) (len := 3) (x := sel)).symm
    _ = selIndex sel ++ 0#3 := by rw [BitVec.and_append, BitVec.and_allOnes, BitVec.and_zero]

/-- Settles O3, from the entry's address as a number. -/
theorem descAddrIsBasePlusEightIndex : Obligations.DescAddrIsBasePlusEightIndex := by
  intro s sel
  refine ⟨?_, entryAddr_toNat _ sel, ?_⟩
  · simp only [tableOf, ← BitVec.toNat_inj, BitVec.ofNat_eq_ofNat, BitVec.toNat_zero]
  · rw [and_fff8_eq_append, toNat_append_eq_add]
    exact Nat.mul_comm _ _

/-! ## Reading memory (R46) -/

/-- Settles O7: a value is its four bytes joined, and byte `i` of a value read is the byte at `a + i`. -/
theorem memReadIsLittleEndian : Obligations.MemReadIsLittleEndian := by
  intro m a
  refine ⟨?_, descAt_byte5 m a⟩
  have h3 : (memRead m a 4).extractLsb' 24 8 = m.read (a + 3).toNat := memRead_byte (n := 4) (i := 3) (by decide)
  have h2 : (memRead m a 4).extractLsb' 16 8 = m.read (a + 2).toNat := memRead_byte (n := 4) (i := 2) (by decide)
  have h1 : (memRead m a 4).extractLsb' 8 8 = m.read (a + 1).toNat := memRead_byte (n := 4) (i := 1) (by decide)
  have h0 : (memRead m a 4).extractLsb' 0 8 = m.read a.toNat := BitVec.extractLsb'_append_eq_right
  rw [← h3, ← h2, ← h1, ← h0]
  exact (join32 _).symm

/-! ## Translation (R43, R44, R54) -/

/-- Past the null test and the refusal of offsets that wrap: ProtCheck's answer, then the linear address. -/
theorem translate_of_inRange {s : State} {r : SegName} {off : Word} {n : Nat} (k : RefKind)
    (hnull : isNull (s.segReg r).sel = false) (hin : off.toNat + n ≤ 2 ^ 32) :
    translate s r off n k =
      (judge (s.prot.reference r (s.segReg r) off n k) (.reference r off n k) >>= fun _ => .ok (linear s r off)) := by
  rw [translate, hnull, if_neg Bool.false_ne_true, if_neg (Nat.not_lt.mpr hin), linear]

/-- Settles O8: the null test, the wrap, then one case for each verdict. -/
theorem translateOutcome : Obligations.TranslateOutcome := by
  intro s r off n k
  constructor
  · intro hnull
    rw [translate, if_pos hnull]
  · intro hnull
    constructor
    · intro hwrap
      rw [translate, hnull, if_neg Bool.false_ne_true, if_pos hwrap]
    · intro hin
      rw [translate_of_inRange k hnull hin]
      refine ⟨fun hv => ?violation, fun hv => ?notNamed, fun hv => ?pass⟩ <;> rw [hv]
      case violation => rfl
      case notNamed => rfl
      case pass => exact ⟨_, rfl, BitVec.toNat_add _ _⟩

end Sys2Proof.Machine
end

section
/-! Where an instruction that loads a segment register stops: each begins with the load itself (R70), so where the load
stops, the instruction stops in the same way. -/

namespace Sys2Proof.Machine

/-! ## The load, past the null test -/

theorem names_iff {s : State} {sel : Half} :
    names s sel = true ↔ isNull sel = false ∧ inTable (tableOf s sel) sel = true := by
  rw [names, Bool.and_eq_true, Bool.not_eq_true']

theorem fetchDesc_of_inTable {s : State} {sel : Half} (h : inTable (tableOf s sel) sel = true) :
    fetchDesc s sel = .ok (namedDesc s sel) := fetchDesc_eq_ok.mpr ⟨h, rfl⟩

theorem fetchDesc_of_beyond {s : State} {sel : Half} (h : inTable (tableOf s sel) sel = false) :
    fetchDesc s sel = raise (.descriptorTableLimit sel) := by
  rw [fetchDesc, h, if_neg Bool.false_ne_true]

/-- `LoadSeg` from a descriptor: the checks of R70 steps 4 and 5, then steps 6 and 7. -/
theorem loadSeg_of_names {s : State} {sel : Half} (r : SegName) (h : names s sel = true) :
    loadSeg s r sel =
      (passChecks s (.seg r) sel (namedDesc s sel) >>= fun _ => .ok (commitSeg s r sel (namedDesc s sel))) := by
  obtain ⟨hnull, hin⟩ := names_iff.mp h
  rw [loadSeg, hnull, if_neg Bool.false_ne_true, fetchDesc_of_inTable hin, ok_bind]

/-- A far transfer's load of CS from a descriptor: S is looked at first (log 23). -/
theorem loadCsFar_of_names {s : State} {sel : Half} (h : names s sel = true) :
    loadCsFar s sel =
      if descS (namedDesc s sel).d4 then loadSeg s .cs sel else refuse (.farTransferToSystem sel) := by
  obtain ⟨hnull, hin⟩ := names_iff.mp h
  rw [loadCsFar, hnull, if_neg Bool.false_ne_true, fetchDesc_of_inTable hin, ok_bind]

/-- The load of `r` as the instructions that load it make it: CS by a far transfer (R77, R78), others by `LoadSeg`. -/
def loadInto (s : State) (r : SegName) (sel : Half) : Result State :=
  if r = .cs then loadCsFar s sel else loadSeg s r sel

theorem loadInto_of_beyond {s : State} {sel : Half} (r : SegName) (hnull : isNull sel = false)
    (hin : inTable (tableOf s sel) sel = false) : loadInto s r sel = raise (.descriptorTableLimit sel) := by
  simp only [loadInto, loadCsFar, loadSeg, hnull, Bool.false_eq_true, if_false, fetchDesc_of_beyond hin, raise_bind,
    ite_self]

/-! ## Every loading instruction begins with the load -/

/-- `o` is the load of `r` with `sel`, then something that runs only where the load answers. -/
def BeginsWithLoad (s : State) (r : SegName) (sel : Half) (o : Host.Outcome State Fault Refusal) : Prop :=
  ∃ f : State → Result State, o = finish (loadInto s r sel >>= f)

theorem readFar_of_loadSel {s : State} {p : Prefixes} {m : MemOp} {sel : Half}
    (hsel : (if memOk s p m (farSize p.op16) .read then some (farSel s p m) else none) = some sel) :
    readFar s p m = .ok (farOff s p m, sel) := by
  obtain ⟨hok, hval⟩ := Option.ite_none_right_eq_some.mp hsel
  exact readFar_eq_ok.mpr ⟨hok, rfl, (Option.some.inj hval).symm⟩

namespace BeginsWithLoad

variable {s : State} {r : SegName} {sel : Half}

theorem stops {o : Host.Outcome State Fault Refusal} {e : Stop} (h : BeginsWithLoad s r sel o)
    (hload : loadInto s r sel = .error e) : o = finish (.error e) := by
  obtain ⟨f, rfl⟩ := h
  rw [hload, error_bind]

theorem of_movToSreg {p : Prefixes} {rm : RM} (hsel : loadSel s (.movToSreg p r rm) = some sel) :
    BeginsWithLoad s r sel (exec (.movToSreg p r rm) s) := by
  obtain ⟨⟨hr, hok⟩, hval⟩ := Option.ite_none_right_eq_some.mp hsel
  obtain rfl := Option.some.inj hval
  refine ⟨.ok, ?_⟩
  rw [exec, execMovToSreg, if_neg hr, readRM16_eq_ok.mpr ⟨hok, rfl⟩, ok_bind, loadInto, if_neg hr]
  cases loadSeg s r _ <;> rfl

theorem of_popSeg {op16 : Bool} (hr : r ≠ .cs)
    (hsel : (if stackOk s op16 then some (stackSel s) else none) = some sel) :
    BeginsWithLoad s r sel (finish (popSeg s op16 r)) := by
  obtain ⟨hok, hval⟩ := Option.ite_none_right_eq_some.mp hsel
  obtain rfl := Option.some.inj hval
  exact ⟨_, by rw [popSeg, topSel_eq_ok.mpr ⟨hok, rfl⟩, ok_bind, loadInto, if_neg hr]⟩

theorem of_loadPointer {p : Prefixes} {g : Reg} {m : MemOp} (hr : r ≠ .cs)
    (hsel : (if memOk s p m (farSize p.op16) .read then some (farSel s p m) else none) = some sel) :
    BeginsWithLoad s r sel (finish (loadPointer s p r g m)) :=
  ⟨_, by rw [loadPointer, readFar_of_loadSel hsel, ok_bind, loadInto, if_neg hr]⟩

theorem of_jmpFar (s : State) (sel : Half) (off : Word) : BeginsWithLoad s .cs sel (finish (jmpFar s sel off)) :=
  ⟨_, rfl⟩

theorem of_callFar (s : State) (op16 : Bool) (sel : Half) (off : Word) :
    BeginsWithLoad s .cs sel (finish (callFar s op16 sel off)) :=
  ⟨_, rfl⟩

end BeginsWithLoad

/-- Every instruction that loads a segment register begins with the load, once its operand is read (R71 to R78). -/
theorem exec_beginsWithLoad {i : Instr} {s : State} {r : SegName} {sel : Half} (hr : loadTarget i = some r)
    (hsel : loadSel s i = some sel) : BeginsWithLoad s r sel (exec i s) := by
  cases i with
  | movToSreg p q rm => cases hr; exact .of_movToSreg hsel
  | popEs p => cases hr; exact .of_popSeg (by decide) hsel
  | popSs p => cases hr; exact .of_popSeg (by decide) hsel
  | popDs p => cases hr; exact .of_popSeg (by decide) hsel
  | popFs p => cases hr; exact .of_popSeg (by decide) hsel
  | popGs p => cases hr; exact .of_popSeg (by decide) hsel
  | lds p g m => cases hr; exact .of_loadPointer (by decide) hsel
  | lss p g m => cases hr; exact .of_loadPointer (by decide) hsel
  | lgs p g m => cases hr; exact .of_loadPointer (by decide) hsel
  | lfs p g m => cases hr; exact .of_loadPointer (by decide) hsel
  | callPtr p off q => cases hr; cases hsel; exact .of_callFar s p.op16 sel off
  | callMem p m =>
    cases hr
    rw [exec, execCallMem, readFar_of_loadSel hsel]
    exact .of_callFar s p.op16 sel _
  | jmpPtr p off q => cases hr; cases hsel; exact .of_jmpFar s sel off
  | jmpMem p m =>
    cases hr
    rw [exec, execJmpMem, readFar_of_loadSel hsel]
    exact .of_jmpFar s sel _
  | _ => cases hr

/-! ## Descriptors beyond their table (R50, R94) -/

/-- Settles O12: the load stops at its table test; with an LDTR limit below 7 no index passes that test. -/
theorem beyondTableLimitRaises : Obligations.BeyondTableLimitRaises := by
  intro i s r sel hr hsel
  have stop (hnull : isNull sel = false) (hlim : (tableOf s sel).limit.toNat < 8 * (selIndex sel).toNat + 7) :
      exec i s = .fault (.descriptorTableLimit sel) := by
    have hin : inTable (tableOf s sel) sel = false := decide_eq_false (Nat.not_le.mpr hlim)
    exact (exec_beginsWithLoad hr hsel).stops (loadInto_of_beyond r hnull hin)
  refine ⟨stop, fun hldtr hti => stop ?_ ?_⟩
  · rw [isNull, hti]
    exact Bool.and_false _
  · rw [tableOf, hti, if_neg (by decide)]
    omega

/-! ## Descriptors that are not present (R40, U3; log 37) -/

theorem passChecks_stops {s : State} {l : LoadTarget} {sel : Half} {d : Desc} (hp : descP d.d4 = false) :
    ∃ e, passChecks s l sel d = .error e := by
  cases h : passChecks s l sel d with
  | error e => exact ⟨e, rfl⟩
  | ok u => cases hp.symm.trans (passChecks_eq_ok.mp h).2

/-- S lies in `D4[15:8]`, so far transfers look at nothing else either before they refuse. -/
theorem loadInto_of_notPresent {s t : State} {sel : Half} (r : SegName) (hprot : t.prot = s.prot)
    (hs : names s sel = true) (ht : names t sel = true) (hp : descP (namedDesc s sel).d4 = false)
    (hbyte : (namedDesc t sel).d4.extractLsb' 8 8 = (namedDesc s sel).d4.extractLsb' 8 8) :
    ∃ e, loadInto s r sel = .error e ∧ loadInto t r sel = .error e := by
  obtain ⟨_, hS, _⟩ := seen_of_notPresent (d0 := (namedDesc s sel).d0) (e0 := (namedDesc t sel).d0) hp hbyte
  obtain ⟨e, he⟩ := passChecks_stops (s := s) (l := .seg r) (sel := sel) hp
  have hsegS : loadSeg s r sel = .error e := by rw [loadSeg_of_names r hs, he, error_bind]
  have hsegT : loadSeg t r sel = .error e := by
    rw [loadSeg_of_names r ht, passChecks_of_notPresent hprot hp hbyte, he, error_bind]
  by_cases hr : r = .cs
  · subst hr
    rw [loadInto, loadInto, if_pos rfl, if_pos rfl, loadCsFar_of_names hs, loadCsFar_of_names ht, hS, hsegS, hsegT]
    cases descS (namedDesc s sel).d4 with
    | true => exact ⟨e, rfl, rfl⟩
    | false => exact ⟨_, rfl, rfl⟩
  · rw [loadInto, loadInto, if_neg hr, if_neg hr]
    exact ⟨e, hsegS, hsegT⟩

theorem exec_lldt {s : State} {p : Prefixes} {rm : RM} (h : rmOk s p rm = true) :
    exec (.lldt p rm) s = finish (loadLdtr s (rmVal s p rm)) := by
  rw [exec, execLldt, readRM16_eq_ok.mpr ⟨h, rfl⟩, ok_bind]

theorem loadLdtr_of_passChecks_stops {s : State} {sel : Half} {e : Stop} (hnull : isNull (tiCleared sel) = false)
    (hin : inTable s.gdtr sel = true)
    (he : passChecks s .ldtr sel (descAt s.mem (entryAddr s.gdtr sel)) = .error e) : loadLdtr s sel = .error e := by
  simp only [loadLdtr, hnull, hin, he, error_bind, Bool.false_eq_true, if_false, if_true]

/-- Settles O15: both loads stop at one and the same check, and both instructions with them. -/
theorem notPresentLoadReadsOneByte : Obligations.NotPresentLoadReadsOneByte := by
  intro s t sel hprot
  constructor
  · intro i r hr hselS hselT hs ht hp hbyte
    obtain ⟨e, heS, heT⟩ := loadInto_of_notPresent r hprot hs ht hp hbyte
    rw [(exec_beginsWithLoad hr hselS).stops heS, (exec_beginsWithLoad hr hselT).stops heT]
  · intro p rm hokS hokT hvalS hvalT hnull hinS hinT hp hbyte
    obtain ⟨e, heS⟩ := passChecks_stops (s := s) (l := .ldtr) (sel := sel) hp
    have heT := (passChecks_of_notPresent hprot hp hbyte).trans heS
    rw [exec_lldt hokS, exec_lldt hokT, hvalS, hvalT, loadLdtr_of_passChecks_stops hnull hinS heS,
      loadLdtr_of_passChecks_stops hnull hinT heT]

end Sys2Proof.Machine
end

section
/-! The accessed bit (R37, R49): a descriptor's two doublewords after `SetAccessed`, and why a second load
changes nothing. -/

namespace Sys2Proof.Machine

/-! ## Setting the bit in a doubleword -/

theorem descA_setA (d4 : Word) : descA (d4 ||| 0x100) = true := by
  rw [descA, BitVec.getLsbD_or]
  exact Bool.or_true _

theorem descS_setA (d4 : Word) : descS (d4 ||| 0x100) = descS d4 := by
  rw [descS, BitVec.getLsbD_or]
  exact Bool.or_false _

theorem descG_setA (d4 : Word) : descG (d4 ||| 0x100) = descG d4 := by
  rw [descG, BitVec.getLsbD_or]
  exact Bool.or_false _

theorem extract_setA_of_zero (d4 : Word) (start len : Nat) (h : (0x100 : Word).extractLsb' start len = 0) :
    (d4 ||| 0x100).extractLsb' start len = d4.extractLsb' start len := by
  rw [BitVec.extractLsb'_or, h, BitVec.ofNat_eq_ofNat, BitVec.or_zero]

theorem descAttrs_setA (d4 : Word) : descAttrs (d4 ||| 0x100) = descAttrs d4 ||| 1 := by
  rw [descAttrs, BitVec.extractLsb'_or, BitVec.extractLsb'_or]
  exact BitVec.or_append.symm

/-- A load fills the hidden part with A set (R70 step 7, C7), so setting A in memory does not change what it fills. -/
theorem hiddenOf_setA (d0 : Word) {d4 : Word} (hS : descS d4 = true) :
    hiddenOf d0 (d4 ||| 0x100) = hiddenOf d0 d4 := by
  have hbase : descBase d0 (d4 ||| 0x100) = descBase d0 d4 := by
    rw [descBase, extract_setA_of_zero d4 24 8 (by decide), extract_setA_of_zero d4 0 8 (by decide), descBase]
  have hlimit : descEffLimit d0 (d4 ||| 0x100) = descEffLimit d0 d4 := by
    rw [descEffLimit, descG_setA, descLimit20, extract_setA_of_zero d4 16 4 (by decide), descEffLimit, descLimit20]
  have hattrs : loadedAttrs (d4 ||| 0x100) = loadedAttrs d4 := by
    rw [loadedAttrs, descS_setA, if_pos hS, descAttrs_setA, BitVec.or_assoc, BitVec.or_self, loadedAttrs, if_pos hS]
  rw [hiddenOf, hbase, hlimit, hattrs, hiddenOf]

/-- The bytes of the doubleword whose one set bit is A. -/
theorem extract_bitA {i : Nat} (h : i < 4) :
    (0x100 : Word).extractLsb' (8 * i) 8 = if i = 1 then (1 : Byte) else 0 := by
  have all : ∀ i : Fin 4, (0x100 : Word).extractLsb' (8 * i) 8 = if i.val = 1 then (1 : Byte) else 0 := by decide
  exact all ⟨i, h⟩

/-! ## The descriptor in memory after `SetAccessed` -/

theorem descA_descAt (m : Memory) (a : Word) : descA (descAt m a).d4 = (m.read (a + 5).toNat).getLsbD 0 := by
  rw [← descAt_byte5, BitVec.getLsbD_extractLsb']
  rfl

theorem or_one_of_bit0 {b : Byte} (h : b.getLsbD 0 = true) : b ||| 1 = b := by
  revert b
  decide

/-- Every byte after `SetAccessed`: a format 1 descriptor's byte `d + 5` has A set, whatever A was. -/
theorem read_setAccessed (m : Memory) (a : Word) (x : Nat) :
    (setAccessed m (descAt m a)).read x =
      if descS (descAt m a).d4 ∧ x = (a + 5).toNat then m.read x ||| 1 else m.read x := by
  rw [accessedSet_setAccessed m a x]
  by_cases h : descS (descAt m a).d4 ∧ x = (a + 5).toNat
  · rw [if_pos h]
    obtain ⟨hS, rfl⟩ := h
    cases hA : descA (descAt m a).d4 with
    | false => exact if_pos ⟨hS, Bool.false_ne_true, rfl⟩
    | true =>
      rw [if_neg fun ⟨_, hne, _⟩ => hne rfl]
      exact (or_one_of_bit0 ((descA_descAt m a).symm.trans hA)).symm
  · rw [if_neg h, if_neg fun ⟨hS, _, hx⟩ => h ⟨hS, hx⟩]

theorem toNat_add_inj {a : Word} {i j : Nat} (hi : i < 2 ^ 32) (hj : j < 2 ^ 32) :
    (a + BitVec.ofNat 32 i).toNat = (a + BitVec.ofNat 32 j).toNat ↔ i = j := by
  rw [BitVec.toNat_inj, BitVec.add_right_inj, ← BitVec.toNat_inj, BitVec.toNat_ofNat, BitVec.toNat_ofNat,
    Nat.mod_eq_of_lt hi, Nat.mod_eq_of_lt hj]

theorem descAt_setAccessed_d0 (m : Memory) (a : Word) :
    (descAt (setAccessed m (descAt m a)) a).d0 = (descAt m a).d0 := by
  refine memRead_congr fun i hi => ?_
  have hne : (a + BitVec.ofNat 32 i).toNat ≠ (a + 5).toNat := fun e =>
    absurd ((toNat_add_inj (j := 5) (by omega) (by decide)).mp e) (by omega)
  rw [read_setAccessed, if_neg fun h => hne h.2]

theorem descAt_setAccessed_d4 (m : Memory) (a : Word) :
    (descAt (setAccessed m (descAt m a)) a).d4 =
      if descS (descAt m a).d4 then (descAt m a).d4 ||| 0x100 else (descAt m a).d4 := by
  refine eq_of_bytes (n := 4) fun i hi => ?_
  have haddr : (a + 4 + BitVec.ofNat 32 i).toNat = (a + 5).toNat ↔ i = 1 := by
    rw [show a + 5 = a + 4 + BitVec.ofNat 32 1 by rw [BitVec.add_assoc]; rfl]
    exact toNat_add_inj (by omega) (by decide)
  have hold : (descAt m a).d4.extractLsb' (8 * i) 8 = m.read (a + 4 + BitVec.ofNat 32 i).toNat := memRead_byte hi
  have hnew : (descAt (setAccessed m (descAt m a)) a).d4.extractLsb' (8 * i) 8 =
      (setAccessed m (descAt m a)).read (a + 4 + BitVec.ofNat 32 i).toNat := memRead_byte hi
  rw [hnew, read_setAccessed]
  simp only [haddr]
  cases descS (descAt m a).d4 with
  | false => rw [if_neg fun h => Bool.false_ne_true h.1, if_neg Bool.false_ne_true, hold]
  | true =>
    rw [if_pos rfl, BitVec.extractLsb'_or, extract_bitA hi, hold]
    by_cases h1 : i = 1 <;> simp [h1]

theorem descS_setAccessed (m : Memory) (a : Word) :
    descS (descAt (setAccessed m (descAt m a)) a).d4 = descS (descAt m a).d4 := by
  rw [descAt_setAccessed_d4]
  split
  · exact descS_setA _
  · rfl

theorem descA_setAccessed {m : Memory} {a : Word} (hS : descS (descAt m a).d4 = true) :
    descA (descAt (setAccessed m (descAt m a)) a).d4 = true := by
  rw [descAt_setAccessed_d4, if_pos hS]
  exact descA_setA _

theorem hiddenOf_setAccessed (m : Memory) (a : Word) :
    hiddenOf (descAt (setAccessed m (descAt m a)) a).d0 (descAt (setAccessed m (descAt m a)) a).d4 =
      hiddenOf (descAt m a).d0 (descAt m a).d4 := by
  rw [descAt_setAccessed_d0, descAt_setAccessed_d4]
  split
  next hS => exact hiddenOf_setA _ hS
  next => rfl

/-- Where there is no bit to set, `SetAccessed` writes nothing (D3). -/
theorem setAccessed_of_set {m : Memory} {d : Desc} (h : descS d.d4 = true → descA d.d4 = true) :
    setAccessed m d = m := by
  cases hS : descS d.d4 with
  | false => rw [setAccessed, hS, Bool.false_and, if_neg Bool.false_ne_true]
  | true => rw [setAccessed, h hS, Bool.not_true, Bool.and_false, if_neg Bool.false_ne_true]

theorem setAccessed_again (m : Memory) (a : Word) :
    setAccessed (setAccessed m (descAt m a)) (descAt (setAccessed m (descAt m a)) a) = setAccessed m (descAt m a) :=
  setAccessed_of_set fun hS => descA_setAccessed ((descS_setAccessed m a).symm.trans hS)

/-! ## Loads and selector tests -/

theorem descAddr_of_sameTables {s t : State} (h : SameTables s t) (sel : Half) : descAddr t sel = descAddr s sel := by
  obtain ⟨hgdtr, hldtr, _⟩ := h.tableRegs
  simp only [descAddr, tableOf, hgdtr, hldtr]

/-- What a load from a descriptor and a selector test have in common. -/
theorem mem_of_load_or_test {s t : State} {r : SegName} {sel : Half} (hnull : isNull sel = false)
    (h : loadSeg s r sel = .ok t ∨ selTest s sel = .ok t) :
    t.mem = setAccessed s.mem (namedDesc s sel) ∧ SameTables s t := by
  rcases h with hload | htest
  · rcases loadSeg_eq_ok.mp hload with ⟨hnull', _⟩ | ⟨_, rfl⟩
    · cases hnull.symm.trans hnull'
    · exact ⟨rfl, rfl, rfl, rfl, rfl, rfl⟩
  · obtain ⟨_, rfl⟩ := selTest_eq_ok.mp htest
    exact ⟨rfl, rfl, rfl, rfl, rfl, rfl⟩

/-- Settles O24: the new memory is `SetAccessed`'s, in which the selector names the same address. -/
theorem accessedBitSetByLoadsAndTests : Obligations.AccessedBitSetByLoadsAndTests := by
  intro s t r sel hnull h
  obtain ⟨hmem, htables⟩ := mem_of_load_or_test hnull h
  have hdesc : namedDesc t sel = descAt (setAccessed s.mem (namedDesc s sel)) (descAddr s sel) := by
    rw [namedDesc, hmem, descAddr_of_sameTables htables]
  rw [hdesc, hmem]
  exact ⟨descA_setAccessed, accessedSet_setAccessed s.mem _⟩

theorem SegFile.set_set (f : SegFile) (r : SegName) (v w : SegReg) : (f.set r v).set r w = f.set r w := by
  cases r <;> rfl

/-- A second commit finds A set, and fills the hidden part with what the first one filled it with. -/
theorem commitSeg_again {s t : State} {r : SegName} {sel : Half} (ht : t = commitSeg s r sel (namedDesc s sel)) :
    commitSeg t r sel (namedDesc t sel) = t := by
  subst ht
  have hmem : setAccessed (setAccessed s.mem (namedDesc s sel))
      (namedDesc (commitSeg s r sel (namedDesc s sel)) sel) = setAccessed s.mem (namedDesc s sel) :=
    setAccessed_again s.mem _
  have hhid : hiddenOf (namedDesc (commitSeg s r sel (namedDesc s sel)) sel).d0
      (namedDesc (commitSeg s r sel (namedDesc s sel)) sel).d4 = hiddenOf (namedDesc s sel).d0 (namedDesc s sel).d4 :=
    hiddenOf_setAccessed s.mem _
  rw [commitSeg, hhid]
  simp only [commitSeg, State.setSeg, State.setMem, SegFile.set_set] at hmem ⊢
  rw [hmem]

/-- Settles O25: both loads are commits, of the same descriptor but for A. -/
theorem reloadChangesNothing : Obligations.ReloadChangesNothing := by
  intro s t r sel hok hload hok'
  have ht : t = commitSeg s r sel (namedDesc s sel) := by
    rcases loadSeg_eq_ok.mp hload with ⟨hnull, _⟩ | ⟨_, ht⟩
    · cases (not_null_of_loadOk hok).symm.trans hnull
    · exact ht
  exact loadSeg_eq_ok.mpr (.inr ⟨hok', (commitSeg_again ht).symm⟩)

end Sys2Proof.Machine
end

section
/-! ProtCheck is a parameter (R51): no instruction changes it. With O40 and O9: why loads of the table registers
keep every translation. -/

namespace Sys2Proof.Machine

theorem SameTables.prot {s t : State} (h : SameTables s t) : t.prot = s.prot := by
  obtain ⟨_, _, _, _, hprot⟩ := h
  exact hprot

theorem exec_prot {i : Instr} {s t : State} (h : exec i s = .next t) : t.prot = s.prot := by
  cases exec_cases h with
  | load _ _ hload hkept =>
    obtain ⟨_, _, htables, _⟩ := loadSeg_keeps hload
    exact (htables.trans hkept.tables).prot
  | lgdt => rfl
  | lldt hload =>
    obtain ⟨_, _, hprot, _⟩ := loadLdtr_keeps hload
    exact hprot
  | sldt hkept => exact hkept.tables.prot
  | selTest _ htest hkept => exact ((SystemKept.of_selTest htest).tables.trans hkept.tables).prot
  | kept _ hkept => exact hkept.tables.prot

/-- A step that answers executed the instruction it fetched, EIP moved past it. -/
theorem exec_of_step {s t : State} (h : step s = .next t) : ∃ i n, exec i (advance s n) = .next t := by
  cases hf : fetch s with
  | ok x => exact ⟨x.1, x.2, (step_of_fetch hf).symm.trans h⟩
  | error e =>
    simp only [step, runNext, hf] at h
    cases finish_eq_next.mp h

/-- Settles O43: the step's instruction keeps ProtCheck, and so does moving EIP. -/
theorem stepKeepsProtCheck : Obligations.StepKeepsProtCheck := by
  intro s t h
  obtain ⟨_, n, hexec⟩ := exec_of_step h
  exact (exec_prot hexec).trans (advance_prot s n)

/-- Settles O32: LGDT and LLDT load no segment register, and `Translate` reads only one of those and ProtCheck. -/
theorem tableLoadsKeepTranslations : Obligations.TableLoadsKeepTranslations := by
  intro i s t r off n k hi h
  have hnone : loadTarget i ≠ some r := by rcases hi with ⟨_, _, rfl⟩ | ⟨_, _, rfl⟩ <;> exact nofun
  exact translateReadsOnlyItsSegmentRegister s t r off n k (segmentRegisterChangesOnlyByLoad i s t r h hnone)
    (exec_prot h)

end Sys2Proof.Machine
end

section
/-! The decoder takes back what the encoder gives, for every row of the table. -/

namespace Sys2Proof

/-- Every opcode of the table begins with a byte that is none of those before an opcode. -/
theorem Opcode.bytes_head {op : Opcode} (h : op ≠ .pop .cs) :
    ∃ b bs, op.bytes = b :: bs ∧ ∀ q, addLeading q b = none := by
  cases op with
  | push s => cases s <;> exact ⟨_, _, rfl, fun _ => rfl⟩
  | pop s =>
    cases s with
    | cs => exact absurd rfl h
    | _ => exact ⟨_, _, rfl, fun _ => rfl⟩
  | _ => exact ⟨_, _, rfl, fun _ => rfl⟩

/-- The decoder finds the bytes before the opcode and the opcode; what is left is the row's operands. -/
theorem decode_of_body {i : Instr} {op : Opcode} {tail rest : List Byte} (hbody : encodeBody i = op.bytes ++ tail)
    (hop : op ≠ .pop .cs) (htail : takeOperands i.leading op (tail ++ rest) = .ok (i, rest)) :
    decode (encode i ++ rest) = .ok (i, rest) := by
  obtain ⟨b, bs, hbytes, hstop⟩ := Opcode.bytes_head hop
  have hlead : takeLeading ⟨false, false, none⟩ (encode i ++ rest) = (i.leading, op.bytes ++ (tail ++ rest)) := by
    rw [encode, hbody, hbytes]
    simpa using takeLeading_encode (p := i.leading) (bs ++ (tail ++ rest)) hstop
  simp only [decode, hlead, takeOpcode_bytes _ hop, decode_ok_bind, htail]

/-- The rows with ModR/M: `f` is what the row makes of its `reg` field and its operand. -/
theorem decode_of_modRM {i : Instr} {op : Opcode} {g : BitVec 3} {rm : RM} {rest : List Byte}
    {f : BitVec 3 × RM × List Byte → Except DecodeError (Instr × List Byte)} (hrm : rm.wfIn i.leading = true)
    (hbody : encodeBody i = op.bytes ++ encodeModRM g rm) (hop : op ≠ .pop .cs)
    (hrow : ∀ bs, takeOperands i.leading op bs = takeModRM i.leading bs >>= f)
    (hf : f (g, rm, rest) = .ok (i, rest)) :
    decode (encode i ++ rest) = .ok (i, rest) := by
  refine decode_of_body hbody hop ?_
  rw [hrow, takeModRM_encode g rest hrm, decode_ok_bind, hf]

/-- The rows with an immediate far pointer. -/
theorem decode_of_far {i : Instr} {op : Opcode} {off : Word} {sel : Half} {rest : List Byte}
    {f : Word × Half × List Byte → Except DecodeError (Instr × List Byte)} (hoff : farOffWf i.leading off = true)
    (hbody : encodeBody i = op.bytes ++ encodeFar i.leading off sel) (hop : op ≠ .pop .cs)
    (hrow : ∀ bs, takeOperands i.leading op bs = takeFar i.leading bs >>= f)
    (hf : f (off, sel, rest) = .ok (i, rest)) :
    decode (encode i ++ rest) = .ok (i, rest) := by
  refine decode_of_body hbody hop ?_
  rw [hrow, takeFar_encode sel rest hoff, decode_ok_bind, hf]

theorem decode_of_push (p : Prefixes) (s : SegName) (rest : List Byte) :
    decode (encode (ofPush p s) ++ rest) = .ok (ofPush p s, rest) := by
  cases s <;> exact decode_of_body (op := .push _) (tail := []) rfl nofun rfl

theorem decode_of_pop {i : Instr} {p : Prefixes} {s : SegName} (hi : ofPop p s = .ok i) (rest : List Byte) :
    decode (encode i ++ rest) = .ok (i, rest) := by
  have hs : s ≠ .cs := by rintro rfl; cases hi
  refine decode_of_body (op := .pop s) (tail := []) ?_ (fun e => hs (Opcode.pop.inj e)) ?_ <;>
    cases s <;> cases hi <;> rfl

/-- 30_encoding.md section 4, row by row of the table. -/
theorem decode_encode {i : Instr} (rest : List Byte) (h : i.wf = true) :
    decode (encode i ++ rest) = .ok (i, rest) := by
  cases i with
  | lgdt p m => exact decode_of_modRM (op := .group01) (rm := .mem m) h rfl nofun (fun _ => rfl) rfl
  | sgdt p m => exact decode_of_modRM (op := .group01) (rm := .mem m) h rfl nofun (fun _ => rfl) rfl
  | callMem p m => exact decode_of_modRM (op := .groupFF) (rm := .mem m) h rfl nofun (fun _ => rfl) rfl
  | jmpMem p m => exact decode_of_modRM (op := .groupFF) (rm := .mem m) h rfl nofun (fun _ => rfl) rfl
  | lldt p rm => exact decode_of_modRM (op := .group00) (rm := rm) h rfl nofun (fun _ => rfl) rfl
  | sldt p rm => exact decode_of_modRM (op := .group00) (rm := rm) h rfl nofun (fun _ => rfl) rfl
  | verr p rm => exact decode_of_modRM (op := .group00) (rm := rm) h rfl nofun (fun _ => rfl) rfl
  | verw p rm => exact decode_of_modRM (op := .group00) (rm := rm) h rfl nofun (fun _ => rfl) rfl
  | lds p g m => exact decode_of_modRM (op := .lds) (rm := .mem m) h rfl nofun (fun _ => rfl) (by cases g <;> rfl)
  | lss p g m => exact decode_of_modRM (op := .lss) (rm := .mem m) h rfl nofun (fun _ => rfl) (by cases g <;> rfl)
  | lgs p g m => exact decode_of_modRM (op := .lgs) (rm := .mem m) h rfl nofun (fun _ => rfl) (by cases g <;> rfl)
  | lfs p g m => exact decode_of_modRM (op := .lfs) (rm := .mem m) h rfl nofun (fun _ => rfl) (by cases g <;> rfl)
  | lar p g rm => exact decode_of_modRM (op := .lar) (rm := rm) h rfl nofun (fun _ => rfl) (by cases g <;> rfl)
  | lsl p g rm => exact decode_of_modRM (op := .lsl) (rm := rm) h rfl nofun (fun _ => rfl) (by cases g <;> rfl)
  | movFromSreg p s rm =>
    exact decode_of_modRM (op := .movFromSreg) (rm := rm) h rfl nofun (fun _ => rfl) (by cases s <;> rfl)
  | movToSreg p s rm =>
    obtain ⟨hcs, hrm⟩ := Bool.and_eq_true_iff.mp h
    refine decode_of_modRM (op := .movToSreg) hrm rfl nofun (fun _ => rfl) ?_
    cases s with
    | cs => exact absurd rfl (bne_iff_ne.mp hcs)
    | _ => rfl
  | callPtr p off sel => exact decode_of_far (op := .callPtr) h rfl nofun (fun _ => rfl) rfl
  | jmpPtr p off sel => exact decode_of_far (op := .jmpPtr) h rfl nofun (fun _ => rfl) rfl
  | popEs p => exact decode_of_pop (s := .es) rfl rest
  | popSs p => exact decode_of_pop (s := .ss) rfl rest
  | popDs p => exact decode_of_pop (s := .ds) rfl rest
  | popFs p => exact decode_of_pop (s := .fs) rfl rest
  | popGs p => exact decode_of_pop (s := .gs) rfl rest
  | pushEs p => exact decode_of_push p .es rest
  | pushCs p => exact decode_of_push p .cs rest
  | pushSs p => exact decode_of_push p .ss rest
  | pushDs p => exact decode_of_push p .ds rest
  | pushFs p => exact decode_of_push p .fs rest
  | pushGs p => exact decode_of_push p .gs rest

/-- An encoding has 1 to 11 bytes, whatever the instruction. -/
theorem encode_length (i : Instr) : Laws.EncodeLength.Statement i := by
  cases i with
  | lgdt p m => exact Laws.EncodeLength.lgdt p m
  | sgdt p m => exact Laws.EncodeLength.sgdt p m
  | callMem p m => exact Laws.EncodeLength.callMem p m
  | jmpMem p m => exact Laws.EncodeLength.jmpMem p m
  | lldt p rm => exact Laws.EncodeLength.lldt p rm
  | sldt p rm => exact Laws.EncodeLength.sldt p rm
  | verr p rm => exact Laws.EncodeLength.verr p rm
  | verw p rm => exact Laws.EncodeLength.verw p rm
  | lds p g m => exact Laws.EncodeLength.lds p g m
  | lss p g m => exact Laws.EncodeLength.lss p g m
  | lgs p g m => exact Laws.EncodeLength.lgs p g m
  | lfs p g m => exact Laws.EncodeLength.lfs p g m
  | lar p g rm => exact Laws.EncodeLength.lar p g rm
  | lsl p g rm => exact Laws.EncodeLength.lsl p g rm
  | movToSreg p s rm => exact Laws.EncodeLength.movToSreg p s rm
  | movFromSreg p s rm => exact Laws.EncodeLength.movFromSreg p s rm
  | callPtr p off sel => exact Laws.EncodeLength.callPtr p off sel
  | jmpPtr p off sel => exact Laws.EncodeLength.jmpPtr p off sel
  | popEs p => exact Laws.EncodeLength.popEs p
  | popSs p => exact Laws.EncodeLength.popSs p
  | popDs p => exact Laws.EncodeLength.popDs p
  | popFs p => exact Laws.EncodeLength.popFs p
  | popGs p => exact Laws.EncodeLength.popGs p
  | pushEs p => exact Laws.EncodeLength.pushEs p
  | pushCs p => exact Laws.EncodeLength.pushCs p
  | pushSs p => exact Laws.EncodeLength.pushSs p
  | pushDs p => exact Laws.EncodeLength.pushDs p
  | pushFs p => exact Laws.EncodeLength.pushFs p
  | pushGs p => exact Laws.EncodeLength.pushGs p

end Sys2Proof
end

section
/-! A step runs the instruction whose bytes lie at CS:EIP (R20, R77; logs 28 and 39). -/

namespace Sys2Proof.Machine

theorem readBytes_length (m : Memory) (a : Word) (n : Nat) : (readBytes m a n).length = n := by
  induction n generalizing a with
  | zero => rfl
  | succ n ih => rw [readBytes, List.length_cons, ih]

theorem readBytes_add (m : Memory) (a : Word) (k l : Nat) :
    readBytes m a (k + l) = readBytes m a k ++ readBytes m (a + BitVec.ofNat 32 k) l := by
  induction k generalizing a with
  | zero => simp [readBytes]
  | succ k ih => rw [Nat.succ_add, readBytes, readBytes, ih, word_add_one_add, List.cons_append]

/-- The bytes a fetch looks at begin with those that lie at CS:EIP. -/
theorem fetchWindow_of_bytes {s : State} {bs : List Byte} (hlen : bs.length ≤ Config.maxInstrBytes)
    (hbytes : readBytes s.mem (fetchAddr s) bs.length = bs) :
    ∃ rest, fetchWindow s = bs ++ rest ∧ rest.length = Config.maxInstrBytes - bs.length := by
  refine ⟨_, ?_, readBytes_length s.mem (fetchAddr s + BitVec.ofNat 32 bs.length) _⟩
  rw [fetchWindow, ← Nat.add_sub_cancel' hlen, readBytes_add, hbytes, Nat.add_sub_cancel_left]

theorem not_null_of_refOk {s : State} {r : SegName} {off : Word} {n : Nat} {k : RefKind}
    (h : refOk s r off n k = true) : isNull (s.segReg r).sel = false := by
  simp only [refOk, Bool.and_eq_true, Bool.not_eq_true'] at h
  obtain ⟨⟨hnull, _⟩, _⟩ := h
  exact hnull

/-- Settles O49: the fetch answers the decoded instruction and its length. -/
theorem stepRunsTheDecodedInstruction : Obligations.StepRunsTheDecodedInstruction :=
  fun _ _ rest hdec hok => step_of_fetch (fetch_eq_ok.mpr ⟨not_null_of_refOk hok, rest, hdec, rfl, hok⟩)

/-- Settles O50: an encoding fits into the bytes a fetch looks at, and decodes to its instruction whatever follows. -/
theorem stepRunsTheEncodedInstruction : Obligations.StepRunsTheEncodedInstruction := by
  intro s i hwf hbytes hok
  obtain ⟨_, hle⟩ := encode_length i
  obtain ⟨rest, hwin, hrest⟩ := fetchWindow_of_bytes (Nat.le_trans hle (by decide)) hbytes
  have hdec : decode (fetchWindow s) = .ok (i, rest) := by rw [hwin, decode_encode rest hwf]
  have hn : 15 - rest.length = (encode i).length := by
    rw [hrest]
    exact Nat.sub_sub_self (Nat.le_trans hle (by decide))
  rw [← hn] at hok ⊢
  exact stepRunsTheDecodedInstruction s i rest hdec hok

end Sys2Proof.Machine
end

section
/-! LGDT, SGDT, LLDT and SLDT (spec/40_descriptor_table_registers.md R65 to R69): what a written operand reads back as, the
limit LLDT keeps, the checks that stop it, and the statements about the four instructions. -/

namespace Sys2Proof.Machine

/-! ## Written operands (R46) -/

/-- A part of a value written reads back, in a canonical memory. -/
theorem memRead_memWrite_part {m : Memory} {a : Word} {n k c : Nat} {v : BitVec (8 * n)} (hm : m.wf = true)
    (hn : n ≤ 2 ^ 32) (h : c + k ≤ n) :
    memRead (memWrite m a n v) (a + BitVec.ofNat 32 c) k = v.extractLsb' (8 * c) (8 * k) := by
  rw [← memRead_part h, memRead_memWrite_same hm hn]

theorem sameOutside_memWrite (m : Memory) (a : Word) (n : Nat) (v : BitVec (8 * n)) :
    SameOutside m (memWrite m a n v) a n := fun _ h => read_memWrite_outside h

/-! ## Tables LLDT leaves (R68, D16, D17) -/

/-- The limit kept is the effective limit where it fits 16 bits, and 65535 where it does not (log 11). -/
theorem dtrLimitOf_toNat (l : Word) : (dtrLimitOf l).toNat = min 65535 l.toNat := by
  unfold dtrLimitOf
  split
  next hfits =>
    rw [BitVec.toNat_setWidth, Nat.mod_eq_of_lt hfits]
    omega
  next hlarge =>
    rw [Nat.min_eq_left (by omega)]
    rfl

/-- A limit below 7 leaves no room for one descriptor (R94, D17). -/
theorem inTable_of_limit_lt_seven {t : TableReg} (h : t.limit.toNat < 7) (sel : Half) : inTable t sel = false :=
  decide_eq_false (by omega)

theorem ldtrNone_limit_lt_seven (s : State) : (ldtrNone s).ldtr.limit.toNat < 7 := by
  have hlt : (Config.freeWord (s.free + 1)).toNat % 7 < 7 := Nat.mod_lt _ (by decide)
  exact Nat.lt_of_le_of_lt (Nat.mod_le _ _) hlt

theorem tableOf_of_ti {sel : Half} (s : State) (h : selTi sel = 1) : tableOf s sel = s.ldtr := by
  rw [tableOf, h, if_neg (by decide)]

/-! ## The checks that stop LLDT (R95, R97; logs 9, 37, 38) -/

theorem passChecks_of_violation {s : State} {l : LoadTarget} {sel : Half} {d : Desc}
    (h : s.prot.load l sel d.d0 d.d4 = .violation) :
    passChecks s l sel d = raise (.protectionViolation (loadQuery l sel d.d0 d.d4)) := by
  rw [passChecks, h]
  rfl

theorem passChecks_of_notNamed {s : State} {l : LoadTarget} {sel : Half} {d : Desc}
    (h : s.prot.load l sel d.d0 d.d4 = .notNamed) :
    passChecks s l sel d = refuse (.protCheckNotNamed (loadQuery l sel d.d0 d.d4)) := by
  rw [passChecks, h]
  rfl

theorem passChecks_of_pass_of_notPresent {s : State} {l : LoadTarget} {sel : Half} {d : Desc}
    (h : s.prot.load l sel d.d0 d.d4 = .pass) (hp : descP d.d4 = false) :
    passChecks s l sel d = raise (.segmentNotPresent sel) := by
  rw [passChecks, h, hp]
  rfl

theorem loadLdtr_of_beyond {s : State} {sel : Half} (hnull : isNull (tiCleared sel) = false)
    (hin : inTable s.gdtr sel = false) : loadLdtr s sel = raise (.descriptorTableLimit sel) := by
  rw [loadLdtr, hnull, hin, if_neg Bool.false_ne_true, if_neg Bool.false_ne_true]

/-- LLDT stops as its load does, once the operand is read. -/
theorem exec_lldt_of_stop {s : State} {p : Prefixes} {rm : RM} {e : Stop} (hok : rmOk s p rm = true)
    (hload : loadLdtr s (rmVal s p rm) = .error e) : exec (.lldt p rm) s = finish (.error e) := by
  rw [exec_lldt hok, hload]

/-- LLDT completes with what its load answers, once the operand is read. -/
theorem exec_lldt_of_load {s t : State} {p : Prefixes} {rm : RM} (hok : rmOk s p rm = true)
    (hload : loadLdtr s (rmVal s p rm) = .ok t) : exec (.lldt p rm) s = .next t := by
  rw [exec_lldt hok, hload, finish_ok]

/-! ## The statements -/

/-- Settles O27: the limit is the low part of the six bytes written, the base the part 2 bytes above. -/
theorem sgdtStoresGdtr : Obligations.SgdtStoresGdtr := by
  intro p m s hwf hok
  refine ⟨_, finish_eq_next.mpr (writeTable_eq_ok.mpr ⟨hok, rfl⟩), ?limit, ?base, sameOutside_memWrite _ _ _ _, rfl⟩
  case limit =>
    have hpart := memRead_memWrite_part (a := memAddr s p m) (n := 6) (k := 2) (c := 0)
      (v := s.gdtr.base ++ s.gdtr.limit) hwf (by decide) (by decide)
    rw [BitVec.add_zero] at hpart
    exact hpart.trans BitVec.extractLsb'_append_eq_right
  case base =>
    exact (memRead_memWrite_part (c := 2) hwf (by decide) (by decide)).trans BitVec.extractLsb'_append_eq_left

/-- Settles O28: the load past its checks, and the limit it keeps as a number. -/
theorem lldtFillsLdtr : Obligations.LldtFillsLdtr :=
  fun _ _ _ hok hload =>
    ⟨_, exec_lldt_of_load hok (loadLdtr_eq_ok.mpr (.inr ⟨hload, rfl⟩)), rfl, rfl, dtrLimitOf_toNat _⟩

/-- Settles O29: the limit left is below 7 whatever was drawn, and no descriptor lies within such a table. -/
theorem lldtNullLeavesNoTable : Obligations.LldtNullLeavesNoTable := by
  intro p rm s hok hnull
  refine ⟨_, exec_lldt_of_load hok (loadLdtr_eq_ok.mpr (.inl ⟨hnull, rfl⟩)), rfl, fun sel hti => ?_, rfl⟩
  rw [tableOf_of_ti _ hti]
  exact inTable_of_limit_lt_seven (ldtrNone_limit_lt_seven s) sel

/-- Settles O31: the register form as it runs, the memory form as a write of 2 bytes. -/
theorem sldtDeliversLdtr : Obligations.SldtDeliversLdtr := by
  refine fun p s => ⟨fun _ => rfl, fun m hwf hok => ?_⟩
  have hwrite := writeRM16_mem_eq_ok (s := { s with sldtDst := s.ldtr }) (v := s.ldtrSel).mpr ⟨hok, rfl⟩
  exact ⟨_, finish_eq_next.mpr hwrite, rfl, memRead_memWrite_same (n := 2) hwf (by decide), sameOutside_memWrite _ _ _ _⟩

/-- Settles O26: the pair read is the operand's limit and base (log 32). -/
theorem lgdtLoadsGdtr : Obligations.LgdtLoadsGdtr := by
  intro p m s hok
  rw [exec, execLgdt, readTable_eq_ok.mpr ⟨hok, rfl⟩]
  rfl

/-- Settles O30: one case for each check of the load, in the order it makes them. -/
theorem lldtFaultsInOrder : Obligations.LldtFaultsInOrder := by
  intro p rm s hok hnull
  refine ⟨fun hin => ?beyond, fun hin hv => ?violation, fun hin hv => ?notNamed, fun hin hv hp => ?notPresent⟩
  case beyond => exact exec_lldt_of_stop hok (loadLdtr_of_beyond hnull hin)
  case violation =>
    exact exec_lldt_of_stop hok (loadLdtr_of_passChecks_stops hnull hin (passChecks_of_violation hv))
  case notNamed =>
    exact exec_lldt_of_stop hok (loadLdtr_of_passChecks_stops hnull hin (passChecks_of_notNamed hv))
  case notPresent =>
    exact exec_lldt_of_stop hok
      (loadLdtr_of_passChecks_stops hnull hin (passChecks_of_pass_of_notPresent hv hp))

end Sys2Proof.Machine
end

section
/-! What every instruction keeps, by the ways of `ExecCase`: the invariant (R32, R52, R70, R93), and EFLAGS but for the
selector tests' ZF (log 34). -/

namespace Sys2Proof.Machine

/-! ## The invariant (R32, R70, R93) -/

/-- The invariant speaks of the segment registers and of memory's form alone. -/
theorem State.Inv.of_seg_eq {s t : State} (h : s.Inv) (hseg : t.seg = s.seg)
    (hwf : s.mem.wf = true → t.mem.wf = true) : t.Inv := by
  obtain ⟨hmem, hregs⟩ := h
  refine ⟨hwf hmem, ?_⟩
  simp only [segReg_of_seg_eq hseg]
  exact hregs

theorem SystemKept.inv {s t : State} (hkept : SystemKept s t) (h : s.Inv) : t.Inv := h.of_seg_eq hkept.seg hkept.wf

/-- R93: what is loaded into CS or SS is not null. -/
theorem not_null_of_loadSeg {s t : State} {r : SegName} {sel : Half} (hload : loadSeg s r sel = .ok t)
    (hr : r = .cs ∨ r = .ss) : isNull sel = false := by
  rcases loadSeg_eq_ok.mp hload with ⟨_, hcs, hss, _⟩ | ⟨hok, _⟩
  · exact absurd hr (not_or.mpr ⟨hcs, hss⟩)
  · exact not_null_of_loadOk hok

/-- R70 step 7: a selector that is not null comes with the hidden part of a present descriptor. -/
theorem filled_of_loadSeg {s t : State} {r : SegName} {sel : Half} (hload : loadSeg s r sel = .ok t)
    (hnull : isNull sel = false) : Hidden.filled (t.segReg r).hid = true := by
  rcases loadSeg_eq_ok.mp hload with ⟨hnull', _⟩ | ⟨hok, rfl⟩
  · cases hnull.symm.trans hnull'
  · obtain ⟨⟨hreg, _⟩, _⟩ := segLoaded_commitSeg s r sel
    rw [hreg]
    exact hiddenOf_filled (present_of_loadOk hok)

theorem loadSeg_inv {s t : State} {r : SegName} {sel : Half} (hload : loadSeg s r sel = .ok t) (h : s.Inv) :
    t.Inv := by
  obtain ⟨hmem, hcs, hss, hfilled⟩ := h
  obtain ⟨hsel, hothers, _⟩ := loadSeg_keeps hload
  have hnotNull (q : SegName) (hq : q = .cs ∨ q = .ss) (h : isNull (s.segReg q).sel = false) :
      isNull (t.segReg q).sel = false := by
    by_cases hqr : q = r
    · subst hqr
      rw [hsel]
      exact not_null_of_loadSeg hload hq
    · rw [hothers q hqr]
      exact h
  refine ⟨loadSeg_wf hload hmem, hnotNull .cs (.inl rfl) hcs, hnotNull .ss (.inr rfl) hss, fun q hq => ?_⟩
  by_cases hqr : q = r
  · subst hqr
    rw [hsel] at hq
    exact filled_of_loadSeg hload hq
  · rw [hothers q hqr] at hq ⊢
    exact hfilled q hq

theorem exec_inv {i : Instr} {s t : State} (h : exec i s = .next t) (hinv : s.Inv) : t.Inv := by
  cases exec_cases h with
  | load _ _ hload hkept => exact hkept.inv (loadSeg_inv hload hinv)
  | lgdt => exact hinv
  | lldt hload =>
    obtain ⟨hseg, _, _, _, hmem⟩ := loadLdtr_keeps hload
    exact hinv.of_seg_eq hseg fun hwf => hmem ▸ hwf
  | sldt hkept => exact hkept.inv hinv
  | @selTest _ _ u _ _ htest hkept =>
    have hu : u.Inv := (SystemKept.of_selTest htest).inv hinv
    exact hkept.inv hu
  | kept _ hkept => exact hkept.inv hinv

/-- Settles O45: the invariant does not speak of EIP, and the step's instruction keeps it. -/
theorem stepKeepsInvariant : Obligations.StepKeepsInvariant := by
  intro s t hinv h
  obtain ⟨_, n, hexec⟩ := exec_of_step h
  have hadvance : (advance s n).Inv := hinv
  exact exec_inv hexec hadvance

/-! ## EFLAGS (log 34) -/

/-- EFLAGS after an instruction: as before, but for the ZF of a selector test. -/
theorem exec_eflags {i : Instr} {s t : State} (h : exec i s = .next t) :
    t.eflags = s.eflags ∨ IsSelTest i ∧ t.eflags &&& ~~~(0x40 : Word) = s.eflags &&& ~~~(0x40 : Word) := by
  cases exec_cases h with
  | load _ _ hload hkept =>
    obtain ⟨_, _, _, hflags, _⟩ := loadSeg_keeps hload
    exact .inl (hkept.eflags.trans hflags)
  | lgdt => exact .inl rfl
  | lldt hload =>
    obtain ⟨_, _, _, hflags, _⟩ := loadLdtr_keeps hload
    exact .inl hflags
  | sldt hkept => exact .inl hkept.eflags
  | selTest hi htest hkept =>
    refine .inr ⟨hi, ?_⟩
    rw [hkept.eflags, freeZf_eflags, withZf_other, (SystemKept.of_selTest htest).eflags]
  | kept _ hkept => exact .inl hkept.eflags

/-- Settles O42: EFLAGS as before, or the instruction is one of the four the second clause leaves out. -/
theorem flagsChangeOnlyBySelectorTests : Obligations.FlagsChangeOnlyBySelectorTests := by
  intro i s t h
  rcases exec_eflags h with hflags | ⟨⟨p, g, rm, hi⟩, hzf⟩
  · exact ⟨by rw [hflags], fun _ => hflags⟩
  · refine ⟨hzf, fun hne => ?_⟩
    obtain ⟨hlar, hlsl, hverr, hverw⟩ := hne p g rm
    exact absurd hi (not_or.mpr ⟨hlar, not_or.mpr ⟨hlsl, not_or.mpr ⟨hverr, hverw⟩⟩⟩)

end Sys2Proof.Machine
end

section
/-! The instructions that load a segment register (spec/41_segment_register_loads.md R70 to R78): the forms refused, and
the whole effect of those that complete. -/

namespace Sys2Proof.Machine

/-! ## Forms refused by name (U17, U18) -/

/-- Settles O16: a far transfer begins with the load of CS, which looks at S before anything else. -/
theorem farTransferToSystemRefused : Obligations.FarTransferToSystemRefused := by
  intro i s sel hr hsel hnames hS
  have hload : loadInto s .cs sel = refuse (.farTransferToSystem sel) := by
    rw [loadInto, if_pos rfl, loadCsFar_of_names hnames, hS, if_neg Bool.false_ne_true]
  exact (exec_beginsWithLoad hr hsel).stops hload

/-- A ModR/M byte of mod 3 names a register, whatever follows. -/
theorem takeModRM_of_mod_three (p : Prefixes) {b : Byte} (rest : List Byte) (h : b.extractLsb' 6 2 = 3) :
    takeModRM p (b :: rest) = .ok (b.extractLsb' 3 3, .reg (Reg.ofCode (b.extractLsb' 0 3)), rest) := by
  rw [takeModRM, take8_cons, decode_ok_bind]
  exact if_pos h

/-- Settles O17: the meaning refuses before it reads its operand, the decoder once it has the `reg` field. -/
theorem movToCsRefused : Obligations.MovToCsRefused := by
  intro p rm s b rest
  refine ⟨rfl, fun hreg hmod => ?_⟩
  have hrow : decode (0x8E :: b :: rest) = takeOperands ⟨false, false, none⟩ .movToSreg (b :: rest) := rfl
  rw [hrow, takeOperands, takeModRM_of_mod_three _ rest hmod, hreg]
  rfl

/-! ## Loads that complete (R70) -/

/-- Where R70's checks pass, the load answers the state with the register loaded. -/
theorem loadSeg_of_loadOk {s : State} {r : SegName} {sel : Half} (h : loadOk s r sel = true) :
    ∃ u, loadSeg s r sel = .ok u ∧ SegLoaded s u r sel ∧ u.gpr = s.gpr ∧ u.eip = s.eip :=
  ⟨_, loadSeg_eq_ok.mpr (.inr ⟨h, rfl⟩), segLoaded_commitSeg s r sel, rfl, rfl⟩

/-- A null selector is put into DS, ES, FS and GS (R70 step 1). -/
theorem loadSeg_of_null {s : State} {r : SegName} {sel : Half} (hnull : isNull sel = true) (hcs : r ≠ .cs)
    (hss : r ≠ .ss) : ∃ u, loadSeg s r sel = .ok u ∧ NullLoaded s u r sel ∧ u.gpr = s.gpr ∧ u.eip = s.eip :=
  ⟨_, loadSeg_eq_ok.mpr (.inl ⟨hnull, hcs, hss, rfl⟩), nullLoaded_loadNull s r sel, rfl, rfl⟩

/-- MOV is its load, once the operand is read (R71). -/
theorem exec_movToSreg_of_load {p : Prefixes} {r : SegName} {rm : RM} {s u : State} (hr : r ≠ .cs)
    (hok : rmOk s p rm = true) (hload : loadSeg s r (rmVal s p rm) = .ok u) : exec (.movToSreg p r rm) s = .next u := by
  rw [exec, execMovToSreg, if_neg hr, readRM16_eq_ok.mpr ⟨hok, rfl⟩, ok_bind, hload, finish_ok]

/-- Settles O18: MOV answers what the load answers, which is R70's effect. -/
theorem movLoadsSegmentRegister : Obligations.MovLoadsSegmentRegister := by
  intro p r rm s hr hok
  constructor
  · intro hpass
    obtain ⟨u, hload, heffect⟩ := loadSeg_of_loadOk hpass
    exact ⟨u, exec_movToSreg_of_load hr hok hload, heffect⟩
  · intro hnull hss
    obtain ⟨u, hload, heffect⟩ := loadSeg_of_null hnull hr hss
    exact ⟨u, exec_movToSreg_of_load hr hok hload, heffect⟩

theorem ofPop_ne_cs {p : Prefixes} {r : SegName} {i : Instr} (h : ofPop p r = .ok i) : r ≠ .cs := by
  rintro rfl
  cases h

theorem exec_ofPop {p : Prefixes} {r : SegName} {i : Instr} (h : ofPop p r = .ok i) (s : State) :
    exec i s = finish (popSeg s p.op16 r) := by
  cases r <;> cases h <;> rfl

theorem ofNat_itemSize (op16 : Bool) : BitVec.ofNat 32 (itemSize op16) = if op16 then 2 else 4 := by
  cases op16 <;> rfl

/-- POP is its load, then ESP past the item (R72). -/
theorem exec_pop_of_load {p : Prefixes} {r : SegName} {i : Instr} {s u : State} (hi : ofPop p r = .ok i)
    (hok : stackOk s p.op16 = true) (hload : loadSeg s r (stackSel s) = .ok u) :
    exec i s = .next (u.setReg .esp (s.reg .esp + if p.op16 then 2 else 4)) := by
  rw [exec_ofPop hi, popSeg_eq_ok.mpr ⟨hok, u, hload, rfl⟩, ofNat_itemSize, finish_ok]

/-- Settles O19: the load's effect, to which ESP's new value adds nothing but itself. -/
theorem popLoadsSegmentRegister : Obligations.PopLoadsSegmentRegister := by
  intro p r i s hi hok
  constructor
  · intro hpass
    obtain ⟨u, hload, heffect, hgpr, heip⟩ := loadSeg_of_loadOk hpass
    exact ⟨_, exec_pop_of_load hi hok hload, heffect, heip, by rw [setReg_gpr, hgpr]⟩
  · intro hnull hss
    obtain ⟨u, hload, heffect, hgpr, heip⟩ := loadSeg_of_null hnull (ofPop_ne_cs hi) hss
    exact ⟨_, exec_pop_of_load hi hok hload, heffect, heip, by rw [setReg_gpr, hgpr]⟩

theorem pointerInstr_ne_cs {p : Prefixes} {g : Reg} {m : MemOp} {r : SegName} {i : Instr}
    (h : pointerInstr p g m r = some i) : r ≠ .cs := by
  rintro rfl
  cases h

theorem exec_pointerInstr {p : Prefixes} {g : Reg} {m : MemOp} {r : SegName} {i : Instr}
    (h : pointerInstr p g m r = some i) (s : State) : exec i s = finish (loadPointer s p r g m) := by
  cases r <;> cases h <;> rfl

/-- LDS and its fellows are their load, then the offset to the destination (R73 to R76). -/
theorem exec_pointer_of_load {p : Prefixes} {g : Reg} {m : MemOp} {r : SegName} {i : Instr} {s u : State}
    (hi : pointerInstr p g m r = some i) (hok : memOk s p m (farSize p.op16) .read = true)
    (hload : loadSeg s r (farSel s p m) = .ok u) : exec i s = .next (u.setRegSized p.op16 g (farOff s p m)) := by
  rw [exec_pointerInstr hi, loadPointer_eq_ok.mpr ⟨hok, u, hload, rfl⟩, finish_ok]

/-- The destination takes the offset at the operand size (log 25). -/
theorem setRegSized_gpr {s u : State} (h : u.gpr = s.gpr) (op16 : Bool) (g : Reg) (v : Word) :
    (u.setRegSized op16 g v).gpr =
      s.gpr.set g (if op16 then (s.reg g).extractLsb' 16 16 ++ v.setWidth 16 else v) := by
  rw [State.setRegSized, setReg_gpr, State.reg, h]
  rfl

/-- Settles O20: the load's effect, and the offset in one general register. -/
theorem loadPointerLoadsSegmentAndOffset : Obligations.LoadPointerLoadsSegmentAndOffset := by
  intro p g m r i s hi hok
  constructor
  · intro hpass
    obtain ⟨u, hload, heffect, hgpr, heip⟩ := loadSeg_of_loadOk hpass
    exact ⟨_, exec_pointer_of_load hi hok hload, heffect, heip, setRegSized_gpr hgpr _ _ _⟩
  · intro hnull hss
    obtain ⟨u, hload, heffect, hgpr, heip⟩ := loadSeg_of_null hnull (pointerInstr_ne_cs hi) hss
    exact ⟨_, exec_pointer_of_load hi hok hload, heffect, heip, setRegSized_gpr hgpr _ _ _⟩

/-! ## Far transfers (R77, R78; log 22) -/

theorem readFar_of_memOk {s : State} {p : Prefixes} {m : MemOp} (h : memOk s p m (farSize p.op16) .read = true) :
    readFar s p m = .ok (farOff s p m, farSel s p m) := readFar_eq_ok.mpr ⟨h, rfl, rfl⟩

/-- Through memory, a far transfer is that to the pointer read. -/
theorem exec_jmpMem {s : State} {p : Prefixes} {m : MemOp} (h : memOk s p m (farSize p.op16) .read = true) :
    exec (.jmpMem p m) s = exec (.jmpPtr p (farOff s p m) (farSel s p m)) s := by
  simp only [exec, execJmpMem, execJmpPtr, readFar_of_memOk h, ok_bind]

theorem exec_callMem {s : State} {p : Prefixes} {m : MemOp} (h : memOk s p m (farSize p.op16) .read = true) :
    exec (.callMem p m) s = exec (.callPtr p (farOff s p m) (farSel s p m)) s := by
  simp only [exec, execCallMem, execCallPtr, readFar_of_memOk h, ok_bind]

/-- Settles O21: the load's effect and EIP; the memory form is the other one, with the pointer read. -/
theorem farJumpLoadsCsAndContinues : Obligations.FarJumpLoadsCsAndContinues := by
  intro p s
  have hptr (off : Word) (sel : Half) (hpass : loadOk s .cs sel = true) (hS : descS (namedDesc s sel).d4 = true) :
      ∃ t, exec (.jmpPtr p off sel) s = .next t ∧ SegLoaded s t .cs sel ∧ t.gpr = s.gpr ∧ t.eip = off :=
    ⟨_, finish_eq_next.mpr (jmpFar_eq_ok.mpr ⟨hpass, hS, rfl⟩), segLoaded_commitSeg s .cs sel, rfl, rfl⟩
  refine ⟨hptr, fun m hok hpass hS => ?_⟩
  rw [exec_jmpMem hok]
  exact hptr _ _ hpass hS

/-- The item under an address, written, leaves the item at the address as it was. -/
theorem memRead_memWrite_below {m : Memory} {a b : Word} {n k : Nat} {v : BitVec (8 * n)}
    (ha : a = b + BitVec.ofNat 32 n) (hn : n + k ≤ 2 ^ 32) : memRead (memWrite m b n v) a k = memRead m a k := by
  refine memRead_congr fun i hi => read_memWrite_outside fun j hj => ?_
  rw [ha, BitVec.add_assoc, ← BitVec.ofNat_add, Ne, toNat_add_inj (by omega) (by omega)]
  omega

theorem itemSize_bounds (op16 : Bool) : 2 ≤ itemSize op16 ∧ itemSize op16 ≤ 4 := by
  cases op16 <;> decide

/-- The selector in a pushed item is its low 2 bytes. -/
theorem memRead_selItem {m : Memory} (a : Word) (s : State) (op16 : Bool) (sel : Half) (hm : m.wf = true) :
    memRead (memWrite m a (itemSize op16) (selItem s op16 sel)) a 2 = sel := by
  obtain ⟨hlow, hhigh⟩ := itemSize_bounds op16
  have hpart := memRead_memWrite_part (a := a) (k := 2) (c := 0) (v := selItem s op16 sel) hm (by omega) (by omega)
  rw [BitVec.add_zero] at hpart
  rw [hpart]
  exact (BitVec.setWidth_eq_extractLsb' (by omega)).symm.trans (selItem_low s op16 sel)

theorem linear_eq_sub_add (s : State) (r : SegName) (off x : Word) : linear s r off = linear s r (off - x) + x := by
  rw [linear, linear, BitVec.add_assoc, BitVec.sub_add_cancel]

/-- What a far CALL that answers has done, in canonical memory: the return offset's item lies just under the old CS
selector's, so writing it leaves that one as it was. -/
theorem farCalled_of_callFar {s t : State} {op16 : Bool} {sel : Half} {off : Word} (hwf : s.mem.wf = true)
    (h : callFar s op16 sel off = .ok t) : FarCalled s t op16 sel off := by
  obtain ⟨u, v, w, hload, hpushSel, hpushOff, rfl⟩ := callFar_eq_ok.mp h
  obtain ⟨_, _, rfl⟩ := loadCsFar_eq_ok.mp hload
  obtain ⟨_, rfl⟩ := pushSel_eq_ok.mp hpushSel
  obtain ⟨_, rfl⟩ := pushOff_eq_ok.mp hpushOff
  obtain ⟨hfilled, haccessed, htables, _⟩ := segLoaded_commitSeg s .cs sel
  obtain ⟨_, hhigh⟩ := itemSize_bounds op16
  have hwf' : (setAccessed s.mem (namedDesc s sel)).wf = true := setAccessed_wf hwf
  refine ⟨hfilled, htables, rfl, rfl, rfl, ?selector, ?offset, fun x hx hx' => ?frame⟩
  case selector =>
    exact (memRead_memWrite_below (linear_eq_sub_add s .ss _ _) (by omega)).trans (memRead_selItem _ _ op16 _ hwf')
  case offset => exact memRead_memWrite_same (memWrite_wf hwf') (by omega)
  case frame => exact (read_memWrite_outside hx').trans ((read_memWrite_outside hx).trans (haccessed x))

/-- The load of CS changes nothing a reference through SS looks at, so the stack's conditions before it suffice. -/
theorem callFar_of_farCallOk {s : State} {op16 : Bool} {sel : Half} (off : Word) (h : farCallOk s op16 sel = true) :
    ∃ t, callFar s op16 sel off = .ok t := by
  simp only [farCallOk, Bool.and_eq_true] at h
  obtain ⟨⟨⟨hpass, hS⟩, hselector⟩, hoffset⟩ := h
  exact ⟨_, callFar_eq_ok.mpr ⟨_, _, _, loadCsFar_eq_ok.mpr ⟨hpass, hS, rfl⟩, pushSel_eq_ok.mpr ⟨hselector, rfl⟩,
    pushOff_eq_ok.mpr ⟨hoffset, rfl⟩, rfl⟩⟩

/-- Settles O22: a far CALL whose conditions hold answers; the memory form is the other one, with the pointer read. -/
theorem farCallLoadsCsAndSavesReturn : Obligations.FarCallLoadsCsAndSavesReturn := by
  intro p s hwf
  have hptr (off : Word) (sel : Half) (hok : farCallOk s p.op16 sel = true) :
      ∃ t, exec (.callPtr p off sel) s = .next t ∧ FarCalled s t p.op16 sel off := by
    obtain ⟨t, ht⟩ := callFar_of_farCallOk off hok
    exact ⟨t, finish_eq_next.mpr ht, farCalled_of_callFar hwf ht⟩
  refine ⟨hptr, fun m hok hcall => ?_⟩
  rw [exec_callMem hok]
  exact hptr _ _ hcall

end Sys2Proof.Machine
end

section
/-! References through a segment register, the selector tests and reading a selector
(spec/42_selector_test_and_memory_reference.md R80 to R82). -/

namespace Sys2Proof.Machine

/-! ## A write through a segment register (R81, R52) -/

theorem offset_add_le_of_refOk {s : State} {r : SegName} {off : Word} {n : Nat} {k : RefKind}
    (h : refOk s r off n k = true) : off.toNat + n ≤ 2 ^ 32 := by
  simp only [refOk, Bool.and_eq_true, decide_eq_true_eq] at h
  obtain ⟨⟨_, hin⟩, _⟩ := h
  exact hin

/-- Settles O10: the write changes memory alone, so the read is allowed after it and goes to the same address. -/
theorem referenceWrittenReadsBack : Obligations.ReferenceWrittenReadsBack := by
  intro s r off n v hwf hwrite hread
  have hn : n ≤ 2 ^ 32 := Nat.le_of_add_left_le (offset_add_le_of_refOk hwrite)
  have hback : v = memRead (memWrite s.mem (linear s r off) n v) (linear s r off) n :=
    (memRead_memWrite_same hwf hn).symm
  exact ⟨_, refWrite_eq_ok.mpr ⟨hwrite, rfl⟩, refRead_eq_ok.mpr ⟨hread, hback⟩, sameOutside_memWrite _ _ _ _, rfl⟩

/-! ## Where the selector test refuses (R80, D19) -/

theorem selTest_of_null {s : State} {sel : Half} (h : isNull sel = true) :
    selTest s sel = refuse (.selectorTest .nullSelector sel) := by
  rw [selTest, if_pos h]

theorem selTest_of_beyond {s : State} {sel : Half} (hnull : isNull sel = false)
    (hin : inTable (tableOf s sel) sel = false) : selTest s sel = refuse (.selectorTest .beyondLimit sel) := by
  rw [selTest, hnull, hin]
  rfl

/-- Past the null test and the table's limit, the test looks at P and S of the descriptor named. -/
theorem selTest_of_names {s : State} {sel : Half} (h : names s sel = true) :
    selTest s sel =
      if !descP (namedDesc s sel).d4 then refuse (.selectorTest .notPresent sel)
      else if !descS (namedDesc s sel).d4 then refuse (.selectorTest .systemFormat sel)
      else .ok (s.setMem (setAccessed s.mem (namedDesc s sel))) := by
  obtain ⟨hnull, hin⟩ := names_iff.mp h
  rw [selTest, hnull, hin]
  rfl

/-! ## The four instructions as their test (R80) -/

theorem testOperand_of_rmOk {s : State} {p : Prefixes} {rm : RM} (h : rmOk s p rm = true) :
    testOperand s p rm = (selTest s (rmVal s p rm) >>= fun t => .ok (freeZf t)) := by
  rw [testOperand, readRM16_eq_ok.mpr ⟨h, rfl⟩, ok_bind]

theorem exec_lar_or_lsl {p : Prefixes} {g : Reg} {rm : RM} {i : Instr} (hi : i = .lar p g rm ∨ i = .lsl p g rm)
    (s : State) : exec i s = finish (testOperand s p rm >>= fun t => .ok (freeReg t p.op16 g)) := by
  rcases hi with rfl | rfl <;> rfl

theorem exec_verr_or_verw {p : Prefixes} {rm : RM} {i : Instr} (hi : i = .verr p rm ∨ i = .verw p rm) (s : State) :
    exec i s = finish (testOperand s p rm) := by
  rcases hi with rfl | rfl <;> rfl

/-- A selector test stops as its test of the selector does, once the operand is read. -/
theorem exec_selTest_of_refuse {p : Prefixes} {g : Reg} {rm : RM} {i : Instr} {s : State} {x : Refusal}
    (hi : i = .lar p g rm ∨ i = .lsl p g rm ∨ i = .verr p rm ∨ i = .verw p rm) (hok : rmOk s p rm = true)
    (h : selTest s (rmVal s p rm) = refuse x) : exec i s = .refused x := by
  have htest : testOperand s p rm = refuse x := by rw [testOperand_of_rmOk hok, h, refuse_bind]
  rcases or_assoc.mpr hi with hi | hi
  · rw [exec_lar_or_lsl hi, htest, refuse_bind, finish_refuse]
  · rw [exec_verr_or_verw hi, htest, finish_refuse]

/-- Settles O35: the test's own refusals, one case for each `require` line. -/
theorem selectorTestsRefuseOtherCases : Obligations.SelectorTestsRefuseOtherCases := by
  intro p g rm s i hi hok
  refine ⟨fun hnull => ?null, fun hnull hin => ?beyond, fun hnames hP => ?notPresent, fun hnames hP hS => ?system⟩ <;>
    refine exec_selTest_of_refuse hi hok ?_
  case null => exact selTest_of_null hnull
  case beyond => exact selTest_of_beyond hnull hin
  case notPresent =>
    rw [selTest_of_names hnames, hP]
    rfl
  case system =>
    rw [selTest_of_names hnames, hP, hS]
    rfl

/-! ## Selector tests that complete (R80; log 20) -/

/-- The whole effect of testing an operand: the accessed bit, and a free ZF. -/
theorem testOperand_of_selTestOk {s : State} {p : Prefixes} {rm : RM} (hok : rmOk s p rm = true)
    (htest : selTestOk s (rmVal s p rm) = true) :
    ∃ u, testOperand s p rm = .ok u ∧ AccessedSet s.mem u.mem (namedDesc s (rmVal s p rm)) ∧ u.seg = s.seg ∧
      SameTables s u ∧ u.eip = s.eip ∧ u.gpr = s.gpr ∧
      u.eflags &&& ~~~(0x40 : Word) = s.eflags &&& ~~~(0x40 : Word) :=
  ⟨_, testOperand_eq_ok.mpr ⟨hok, htest, rfl⟩, accessedSet_setAccessed s.mem _, rfl, ⟨rfl, rfl, rfl, rfl, rfl⟩, rfl,
    rfl, withZf_other _ _⟩

/-- Settles O34: VERR and VERW are the test of their operand, and nothing after it. -/
theorem verrVerwSetAccessedBit : Obligations.VerrVerwSetAccessedBit := by
  intro p rm s i hi hok htest
  obtain ⟨u, hu, heffect⟩ := testOperand_of_selTestOk hok htest
  exact ⟨u, by rw [exec_verr_or_verw hi, hu, finish_ok], heffect⟩

theorem freeReg_reg_ne (s : State) (op16 : Bool) {g q : Reg} (h : q ≠ g) : (freeReg s op16 g).reg q = s.reg q :=
  reg_setReg_ne _ _ h

/-- Under a 16-bit operand size the destination keeps its upper half (log 25). -/
theorem freeReg_reg_upper (s : State) (g : Reg) :
    ((freeReg s true g).reg g).extractLsb' 16 16 = (s.reg g).extractLsb' 16 16 := by
  have hreg : (freeReg s true g).reg g = lowHalf (s.reg g) ((Config.freeWord s.free).setWidth 16) :=
    reg_setReg_same _ _ _
  rw [hreg, lowHalf]
  exact BitVec.extractLsb'_append_eq_left

/-- Settles O33: the test of the operand, then a free value that touches the destination register alone. -/
theorem larLslSetAccessedBit : Obligations.LarLslSetAccessedBit := by
  intro p g rm s i hi hok htest
  obtain ⟨u, hu, haccessed, hseg, htables, heip, hgpr, hflags⟩ := testOperand_of_selTestOk hok htest
  have hreg (q : Reg) : u.reg q = s.reg q := by rw [State.reg, hgpr, State.reg]
  refine ⟨freeReg u p.op16 g, ?_, haccessed, hseg, htables, heip, hflags, fun q hq => ?others, fun h16 => ?upper⟩
  · rw [exec_lar_or_lsl hi, hu, ok_bind, finish_ok]
  case others => rw [freeReg_reg_ne u p.op16 hq, hreg]
  case upper => rw [h16, freeReg_reg_upper, hreg]

/-! ## Reading a selector (R82) -/

/-- Settles O36: the register form as it runs, the memory form as a write of 2 bytes. -/
theorem movReadsSegmentRegister : Obligations.MovReadsSegmentRegister := by
  refine fun p r s => ⟨fun _ => rfl, fun m hwf hok => ?_⟩
  have hwrite := writeRM16_mem_eq_ok (v := (s.segReg r).sel).mpr ⟨hok, rfl⟩
  exact ⟨_, finish_eq_next.mpr hwrite, rfl, memRead_memWrite_same (n := 2) hwf (by decide), sameOutside_memWrite _ _ _ _⟩

theorem exec_ofPush (p : Prefixes) (r : SegName) (s : State) :
    exec (ofPush p r) s = finish (pushSel s p.op16 (s.segReg r).sel) := by
  cases r <;> rfl

/-- Settles O37: a push of the selector, whose item holds it in its 2 low bytes. -/
theorem pushWritesSelectorToStack : Obligations.PushWritesSelectorToStack := by
  intro p r s hwf hok
  refine ⟨_, (exec_ofPush p r s).trans (finish_eq_next.mpr (pushSel_eq_ok.mpr ⟨hok, rfl⟩)), ?selector,
    sameOutside_memWrite _ _ _ _, ?frame⟩
  case selector => exact memRead_selItem _ s p.op16 _ hwf
  case frame =>
    rw [← ofNat_itemSize]
    rfl

end Sys2Proof.Machine
end

section
/-! The exceptions of spec/60_exceptions.md R90 where they are raised: by a load (R91, R93, R95, in the order R97 gives
them), by a reference through a null register (R92) in every instruction that makes one, and by the fetch. -/

namespace Sys2Proof.Machine

/-! ## Loads that stop (R91, R93, R95, R97) -/

/-- A null selector is refused to CS and SS, by a far transfer as by every other load (R93, D12). -/
theorem loadInto_of_null {s : State} {r : SegName} {sel : Half} (hnull : isNull sel = true) (hr : r = .cs ∨ r = .ss) :
    loadInto s r sel = raise (.nullSelectorLoad r) := by
  rcases hr with rfl | rfl
  · rw [loadInto, if_pos rfl, loadCsFar, if_pos hnull, loadSeg, if_pos hnull, if_pos (.inl rfl)]
  · rw [loadInto, if_neg (by decide), loadSeg, if_pos hnull, if_pos (.inr rfl)]

/-- Settles O11: the instruction begins with the load, and the load with its null test. -/
theorem nullIntoCsOrSsRaises : Obligations.NullIntoCsOrSsRaises :=
  fun _ _ _ _ hr hsel hnull hcs => (exec_beginsWithLoad hr hsel).stops (loadInto_of_null hnull hcs)

/-- Of a descriptor that a far transfer may name (format 1), CS is loaded as the other five are (R77, R78). -/
theorem loadInto_of_names {s : State} {r : SegName} {sel : Half} (hnames : names s sel = true)
    (hS : r = .cs → descS (namedDesc s sel).d4 = true) : loadInto s r sel = loadSeg s r sel := by
  by_cases hr : r = .cs
  · subst hr
    rw [loadInto, if_pos rfl, loadCsFar_of_names hnames, if_pos (hS rfl)]
  · rw [loadInto, if_neg hr]

/-- Where the checks of R70 steps 4 and 5 stop, every loading instruction stops in the same way. -/
theorem exec_of_passChecks_stops {i : Instr} {s : State} {r : SegName} {sel : Half} {e : Stop}
    (hr : loadTarget i = some r) (hsel : loadSel s i = some sel) (hnames : names s sel = true)
    (hS : r = .cs → descS (namedDesc s sel).d4 = true) (he : passChecks s (.seg r) sel (namedDesc s sel) = .error e) :
    exec i s = finish (.error e) := by
  have hload : loadInto s r sel = .error e := by
    rw [loadInto_of_names hnames hS, loadSeg_of_names r hnames, he, error_bind]
  exact (exec_beginsWithLoad hr hsel).stops hload

/-- Settles O14: either answer stops ProtCheck's step, which is before the present bit's. -/
theorem protCheckDecidesBeforePresentBit : Obligations.ProtCheckDecidesBeforePresentBit :=
  fun _ _ _ _ hr hsel hnames hS =>
    ⟨fun hv => exec_of_passChecks_stops hr hsel hnames hS (passChecks_of_violation hv),
      fun hv => exec_of_passChecks_stops hr hsel hnames hS (passChecks_of_notNamed hv)⟩

/-- `Translate` knows no present bit: it raises for a null selector or as ProtCheck answers, and nothing else. -/
theorem translate_ne_segmentNotPresent (s : State) (r : SegName) (off : Word) (n : Nat) (k : RefKind) (sel : Half) :
    translate s r off n k ≠ raise (.segmentNotPresent sel) := by
  intro h
  obtain ⟨hnull, hrest⟩ := translateOutcome s r off n k
  cases hn : isNull (s.segReg r).sel with
  | true => cases (hnull hn).symm.trans h
  | false =>
    obtain ⟨hwraps, hin⟩ := hrest hn
    rcases Nat.lt_or_ge (2 ^ 32) (off.toNat + n) with hw | hw
    · cases (hwraps hw).symm.trans h
    · rw [translate_of_inRange k hn hw] at h
      cases hv : s.prot.reference r (s.segReg r) off n k <;> rw [hv] at h <;> cases h

/-- Settles O13: the present bit is the last check of the load, and no check of a reference. -/
theorem notPresentRaisesAtTheLoad : Obligations.NotPresentRaisesAtTheLoad :=
  ⟨fun _ _ _ _ hr hsel hnames hS hv hp =>
      exec_of_passChecks_stops hr hsel hnames hS (passChecks_of_pass_of_notPresent hv hp),
    translate_ne_segmentNotPresent⟩

/-! ## References through a null register (R92) -/

theorem translate_of_null {s : State} {r : SegName} (h : isNull (s.segReg r).sel = true) (off : Word) (n : Nat)
    (k : RefKind) : translate s r off n k = raise (.nullSegmentReference r) :=
  (translateOutcome s r off n k).1 h

theorem refRead_of_null {s : State} {r : SegName} (h : isNull (s.segReg r).sel = true) (off : Word) (n : Nat) :
    refRead s r off n = raise (.nullSegmentReference r) := by
  rw [refRead, translate_of_null h, raise_bind]

theorem refWrite_of_null {s : State} {r : SegName} (h : isNull (s.segReg r).sel = true) (off : Word) (n : Nat)
    (v : BitVec (8 * n)) : refWrite s r off n v = raise (.nullSegmentReference r) := by
  rw [refWrite, translate_of_null h, raise_bind]

/-! ## Where a fetch stops (R20, R92, R95; logs 28 and 29) -/

/-- A step whose fetch stops ends as the fetch does. -/
theorem step_of_fetch_stops {s : State} {e : Stop} (h : fetch s = .error e) : step s = finish (.error e) := by
  rw [step, runNext, h]

theorem step_of_null_cs {s : State} (h : isNull (s.segReg .cs).sel = true) :
    step s = .fault (.nullSegmentReference .cs) := by
  have hfetch : fetch s = raise (.nullSegmentReference .cs) := by rw [fetch, if_pos h]
  exact step_of_fetch_stops hfetch

theorem step_of_undecodable {s : State} {e : DecodeError} (hnull : isNull (s.segReg .cs).sel = false)
    (hdec : decode (fetchWindow s) = .error e) : step s = .refused (.undecodable e) := by
  have hfetch : fetch s = refuse (.undecodable e) := by rw [fetch, hnull, if_neg Bool.false_ne_true, hdec]
  exact step_of_fetch_stops hfetch

/-- Past the decoding, a step stops as the execute reference to the instruction's bytes does. -/
theorem step_of_translate_stops {s : State} {i : Instr} {rest : List Byte} {e : Stop}
    (hnull : isNull (s.segReg .cs).sel = false) (hdec : decode (fetchWindow s) = .ok (i, rest))
    (he : translate s .cs s.eip (15 - rest.length) .execute = .error e) : step s = finish (.error e) := by
  have hfetch : fetch s = .error e := by
    rw [fetch, hnull, if_neg Bool.false_ne_true, hdec]
    exact congrArg (· >>= _) he
  exact step_of_fetch_stops hfetch

/-- Settles O51: the null test, the decoding, then each way `Translate` stops past its own null test. -/
theorem fetchStops : Obligations.FetchStops := by
  refine fun s => ⟨step_of_null_cs, fun e => step_of_undecodable, fun i rest hnull hdec => ?_⟩
  obtain ⟨_, hrest⟩ := translateOutcome s .cs s.eip (15 - rest.length) .execute
  obtain ⟨hwraps, hin⟩ := hrest hnull
  refine ⟨fun hw => step_of_translate_stops hnull hdec (hwraps hw), fun hle => ?_⟩
  obtain ⟨hviolation, hnotNamed, _⟩ := hin hle
  exact ⟨fun hv => step_of_translate_stops hnull hdec (hviolation hv),
    fun hv => step_of_translate_stops hnull hdec (hnotNamed hv)⟩

/-- Settles O38: `Translate` and what is made of it; reading the selector makes no reference. -/
theorem nullSegmentReferenceRaises : Obligations.NullSegmentReferenceRaises := by
  intro s r hnull
  refine ⟨translate_of_null hnull, refRead_of_null hnull, refWrite_of_null hnull, ?fetch,
    fun p g => (exec_movFromSreg_reg p r g s).imp fun _ hmov => hmov.1⟩
  case fetch =>
    rintro rfl
    exact step_of_null_cs hnull

/-! ## Instructions whose operand or stack lies in a null segment (R81, R92; logs 3, 21, 22, 27) -/

/-- An instruction whose first part raises does nothing after it (R96, R98). -/
theorem finish_bind_of_raise {α : Type} {x : Result α} {fault : Fault} (h : x = raise fault) (f : α → Result State) :
    finish (x >>= f) = .fault fault := by
  rw [h, raise_bind, finish_raise]

section
variable {s : State} {p : Prefixes} {m : MemOp}

theorem readRM16_of_null (h : isNull (s.segReg (MemOp.seg p m)).sel = true) :
    readRM16 s p (.mem m) = raise (.nullSegmentReference (MemOp.seg p m)) := refRead_of_null h _ 2

theorem writeRM16_of_null (h : isNull (s.segReg (MemOp.seg p m)).sel = true) (v : Half) :
    writeRM16 s p (.mem m) v = raise (.nullSegmentReference (MemOp.seg p m)) := refWrite_of_null h _ 2 v

theorem readTable_of_null (h : isNull (s.segReg (MemOp.seg p m)).sel = true) :
    readTable s p m = raise (.nullSegmentReference (MemOp.seg p m)) := by
  rw [readTable, readMem, refRead_of_null h, raise_bind]

theorem writeTable_of_null (h : isNull (s.segReg (MemOp.seg p m)).sel = true) (t : TableReg) :
    writeTable s p m t = raise (.nullSegmentReference (MemOp.seg p m)) := refWrite_of_null h _ 6 _

theorem readFar_of_null (h : isNull (s.segReg (MemOp.seg p m)).sel = true) :
    readFar s p m = raise (.nullSegmentReference (MemOp.seg p m)) := by
  simp only [readFar, readMem, refRead_of_null h, raise_bind, ite_self]

theorem testOperand_of_null (h : isNull (s.segReg (MemOp.seg p m)).sel = true) :
    testOperand s p (.mem m) = raise (.nullSegmentReference (MemOp.seg p m)) := by
  rw [testOperand, readRM16_of_null h, raise_bind]

theorem exec_movToSreg_of_null {q : SegName} (h : isNull (s.segReg (MemOp.seg p m)).sel = true) (hq : q ≠ .cs) :
    exec (.movToSreg p q (.mem m)) s = .fault (.nullSegmentReference (MemOp.seg p m)) := by
  rw [exec, execMovToSreg, if_neg hq, readRM16_of_null h, raise_bind, finish_raise]

end

section
variable {s : State} (h : isNull (s.segReg .ss).sel = true)
include h

theorem push_of_null (op16 : Bool) (v : BitVec (8 * itemSize op16)) :
    push s op16 v = raise (.nullSegmentReference .ss) := by
  rw [push, refWrite_of_null h, raise_bind]

/-- The free upper half of a 32-bit item is drawn first, which changes no segment register. -/
theorem pushSel_of_null (op16 : Bool) (sel : Half) : pushSel s op16 sel = raise (.nullSegmentReference .ss) := by
  cases op16 with
  | true => exact push_of_null h true _
  | false => exact push_of_null (s := (draw s).2) h false _

theorem popSeg_of_null (op16 : Bool) (r : SegName) : popSeg s op16 r = raise (.nullSegmentReference .ss) := by
  rw [popSeg, topSel, refRead_of_null h, raise_bind, raise_bind]

/-- The load of CS leaves SS null, so the first push raises. -/
theorem callFar_of_null {sel : Half} (op16 : Bool) (off : Word) (hpass : loadOk s .cs sel = true)
    (hS : descS (namedDesc s sel).d4 = true) : callFar s op16 sel off = raise (.nullSegmentReference .ss) := by
  have hload := loadCsFar_eq_ok.mpr ⟨hpass, hS, rfl⟩
  obtain ⟨_, hothers, _⟩ := loadSeg_keeps (loadSeg_of_loadCsFar hload)
  rw [callFar, hload, ok_bind, pushSel_of_null (by rw [hothers .ss (by decide), h]), raise_bind]

end

/-- Settles O39: the operand is referenced before anything else is done, the stack after no more than the load of CS. -/
theorem nullSegmentOperandRaises : Obligations.NullSegmentOperandRaises := by
  intro p m g r q off sel s i
  refine ⟨fun hnull hq => ?operand, fun hnull hi => ?stack, fun hnull hi hsel hpass hS => ?farCall⟩
  case operand =>
    revert i
    simp only [List.forall_mem_cons]
    refine ⟨?lgdt, ?sgdt, ?lldt, ?sldt, ?movToSreg, ?lds, ?lss, ?lgs, ?lfs, ?callMem, ?jmpMem, ?lar, ?lsl, ?verr, ?verw,
      ?movFromSreg, List.forall_mem_nil _⟩
    case lgdt => exact finish_bind_of_raise (readTable_of_null hnull) _
    case sgdt => exact congrArg finish (writeTable_of_null hnull _)
    case lldt => exact finish_bind_of_raise (readRM16_of_null hnull) _
    case sldt => exact congrArg finish (writeRM16_of_null (s := { s with sldtDst := s.ldtr }) hnull _)
    case movToSreg => exact exec_movToSreg_of_null hnull hq
    case lds | lss | lgs | lfs | callMem | jmpMem => exact finish_bind_of_raise (readFar_of_null hnull) _
    case lar | lsl => exact finish_bind_of_raise (testOperand_of_null hnull) _
    case verr | verw => exact congrArg finish (testOperand_of_null hnull)
    case movFromSreg => exact congrArg finish (writeRM16_of_null hnull _)
  case stack =>
    rcases hi with hi | rfl
    · rw [exec_ofPop hi, popSeg_of_null hnull, finish_raise]
    · rw [exec_ofPush, pushSel_of_null hnull, finish_raise]
  case farCall =>
    rcases hi with rfl | rfl
    · exact congrArg finish (callFar_of_null hnull p.op16 off hpass hS)
    · rw [exec, execCallMem, readFar_of_loadSel hsel, ok_bind]
      exact congrArg finish (callFar_of_null hnull p.op16 _ hpass hS)

end Sys2Proof.Machine
end

section
/-! The decoder and the encoder (spec/30_encoding.md section 4): the round trip, the spec's own words, and what any
bytes that decode give, said once of each piece of the decoder. -/

namespace Sys2Proof

/-- Settles O46: the round trip holds in every row of the table. -/
theorem decodeOfEncode : Obligations.DecodeOfEncode := fun _ rest h => decode_encode rest h

/-- Settles O48: the decoder, run on the words of 95 part 3; it stops before the bytes that follow. -/
theorem specWordsDecode : Obligations.SpecWordsDecode :=
  ⟨fun _ => rfl, fun _ => rfl, fun _ => rfl, fun _ => rfl, fun _ => rfl⟩

/-! ## What a decoding answers, if it answers -/

/-- Whatever the decoding answers has the property; one that refuses has them all. -/
def Yields {α : Type} (x : Except DecodeError α) (P : α → Prop) : Prop := ∀ a, x = .ok a → P a

namespace Yields

variable {α β : Type} {x y : Except DecodeError α} {P Q : α → Prop}

theorem ok {a : α} (h : P a) : Yields (.ok a) P := by
  rintro _ ⟨⟩
  exact h

theorem error {e : DecodeError} : Yields (.error e) P := nofun

theorem bind {R : β → Prop} {f : α → Except DecodeError β} (hx : Yields x P) (hf : ∀ a, P a → Yields (f a) R) :
    Yields (x >>= f) R := by
  intro b h
  obtain ⟨a, ha, hb⟩ := decode_bind_eq_ok.mp h
  exact hf a (hx a ha) b hb

/-- A step whose answer does not matter to what follows. -/
theorem bind_of_forall {R : β → Prop} {f : α → Except DecodeError β} (hf : ∀ a, Yields (f a) R) : Yields (x >>= f) R :=
  bind (P := fun _ => True) (fun _ _ => trivial) fun a _ => hf a

theorem ite {c : Prop} [Decidable c] (hx : c → Yields x P) (hy : ¬ c → Yields y P) :
    Yields (if c then x else y) P := by
  split
  next h => exact hx h
  next h => exact hy h

theorem mono (hx : Yields x P) (h : ∀ a, P a → Q a) : Yields x Q := fun a ha => h a (hx a ha)

end Yields

/-! ## Values off the front -/

theorem take8_yields (bs : List Byte) : Yields (take8 bs) fun (b, rest) => bs = b :: rest := by
  cases bs with
  | nil => exact .error
  | cons b rest => exact .ok rfl

theorem take8_suffix (bs : List Byte) : Yields (take8 bs) fun (_, rest) => rest <:+ bs :=
  (take8_yields bs).mono fun _ h => h ▸ List.suffix_cons _ _

theorem take16_suffix (bs : List Byte) : Yields (take16 bs) fun (_, rest) => rest <:+ bs := by
  match bs with
  | b0 :: b1 :: rest => exact .ok (List.suffix_append [b0, b1] rest)
  | [] | [_] => exact .error

theorem take32_suffix (bs : List Byte) : Yields (take32 bs) fun (_, rest) => rest <:+ bs := by
  match bs with
  | b0 :: b1 :: b2 :: b3 :: rest => exact .ok (List.suffix_append [b0, b1, b2, b3] rest)
  | [] | [_] | [_, _] | [_, _, _] => exact .error

theorem takeLeading_suffix (p : Prefixes) (bs : List Byte) : (takeLeading p bs).2 <:+ bs := by
  induction bs generalizing p with
  | nil => exact List.suffix_rfl
  | cons b bs ih =>
    rw [takeLeading]
    split
    · exact (ih _).trans (List.suffix_cons b bs)
    · exact List.suffix_rfl

/-! ## ModR/M operands and far pointers -/

/-- Only mod 0 asks for no displacement. -/
theorem takeDisp_yields (mod : BitVec 2) (bs : List Byte) :
    Yields (takeDisp mod bs) fun (d, rest) => (d = .none → mod = 0) ∧ rest <:+ bs :=
  .ite (fun h => .ok ⟨fun _ => h, List.suffix_rfl⟩) fun _ =>
  .ite (fun _ => (take8_suffix bs).bind fun _ hrest => .ok ⟨nofun, hrest⟩) fun _ =>
  (take32_suffix bs).bind fun _ hrest => .ok ⟨nofun, hrest⟩

theorem takeDisp16_yields (mod : BitVec 2) (bs : List Byte) :
    Yields (takeDisp16 mod bs) fun (d, rest) => (d = .none → mod = 0) ∧ rest <:+ bs :=
  .ite (fun h => .ok ⟨fun _ => h, List.suffix_rfl⟩) fun _ =>
  .ite (fun _ => (take8_suffix bs).bind fun _ hrest => .ok ⟨nofun, hrest⟩) fun _ =>
  (take16_suffix bs).bind fun _ hrest => .ok ⟨nofun, hrest⟩

theorem Base16.code_ofCode : ∀ c : BitVec 3, (Base16.ofCode c).code = c := by decide

theorem Reg.ofCode_eq_iff {c : BitVec 3} {r : Reg} : Reg.ofCode c = r ↔ c = r.code :=
  ⟨fun h => h ▸ (Reg.code_ofCode c).symm, fun h => h ▸ Reg.ofCode_code r⟩

theorem Base16.ofCode_eq_iff {c : BitVec 3} {f : Base16} : Base16.ofCode c = f ↔ c = f.code :=
  ⟨fun h => h ▸ (Base16.code_ofCode c).symm, fun h => h ▸ Base16.ofCode_code f⟩

theorem MemOp.wf_base_iff {b : Reg} {d : Disp} :
    (MemOp.base b d).wf = true ↔ b ≠ .esp ∧ ¬ (b = .ebp ∧ d = .none) := by
  simp only [MemOp.wf, Bool.and_eq_true, Bool.not_eq_true', Bool.and_eq_false_iff, bne_iff_ne, beq_eq_false_iff_ne,
    ne_eq, Decidable.not_and_iff_not_or_not]

theorem MemOp.wf_sib_iff {b x : Reg} {sc : BitVec 2} {d : Disp} :
    (MemOp.sib b x sc d).wf = true ↔ ¬ (b = .ebp ∧ d = .none) := by
  simp only [MemOp.wf, Bool.not_eq_true', Bool.and_eq_false_iff, beq_eq_false_iff_ne, ne_eq,
    Decidable.not_and_iff_not_or_not]

theorem MemOp.wf_base16_iff {f : Base16} {d : Disp16} : (MemOp.base16 f d).wf = true ↔ ¬ (f = .bp ∧ d = .none) := by
  simp only [MemOp.wf, Bool.not_eq_true', Bool.and_eq_false_iff, beq_eq_false_iff_ne, ne_eq,
    Decidable.not_and_iff_not_or_not]

/-- The codes that have no form of their own (ESP; EBP under mod 0) are those of SIB and of the bare displacement. -/
theorem takeMem32_yields (mod : BitVec 2) (rm : BitVec 3) (bs : List Byte) :
    Yields (takeMem32 mod rm bs) fun (m, rest) => (m.wf = true ∧ m.is16 = false) ∧ rest <:+ bs := by
  refine .ite (fun _ => (take8_suffix bs).bind fun (_, bs') hbs' => ?sib) fun hesp =>
    .ite (fun _ => ?abs) fun hebp => ?base
  case sib =>
    refine .ite (fun _ => ?sibAbs) fun hebp => ?sibBase
    case sibAbs => exact (take32_suffix bs').bind fun _ hrest => .ok ⟨⟨rfl, rfl⟩, hrest.trans hbs'⟩
    case sibBase =>
      refine (takeDisp_yields mod bs').bind fun _ ⟨hmod, hrest⟩ =>
        .ok ⟨⟨MemOp.wf_sib_iff.mpr ?_, rfl⟩, hrest.trans hbs'⟩
      exact fun ⟨hb, hd⟩ => hebp ⟨hmod hd, Reg.ofCode_eq_iff.mp hb⟩
  case abs => exact (take32_suffix bs).bind fun _ hrest => .ok ⟨⟨rfl, rfl⟩, hrest⟩
  case base =>
    refine (takeDisp_yields mod bs).bind fun _ ⟨hmod, hrest⟩ => .ok ⟨⟨MemOp.wf_base_iff.mpr ⟨?_, ?_⟩, rfl⟩, hrest⟩
    · exact fun hb => hesp (Reg.ofCode_eq_iff.mp hb)
    · exact fun ⟨hb, hd⟩ => hebp ⟨hmod hd, Reg.ofCode_eq_iff.mp hb⟩

theorem takeMem16_yields (mod : BitVec 2) (rm : BitVec 3) (bs : List Byte) :
    Yields (takeMem16 mod rm bs) fun (m, rest) => (m.wf = true ∧ m.is16 = true) ∧ rest <:+ bs := by
  refine .ite (fun _ => ?abs16) fun hbp => ?base16
  case abs16 => exact (take16_suffix bs).bind fun _ hrest => .ok ⟨⟨rfl, rfl⟩, hrest⟩
  case base16 =>
    refine (takeDisp16_yields mod bs).bind fun _ ⟨hmod, hrest⟩ => .ok ⟨⟨MemOp.wf_base16_iff.mpr ?_, rfl⟩, hrest⟩
    exact fun ⟨hf, hd⟩ => hbp ⟨hmod hd, Base16.ofCode_eq_iff.mp hf⟩

theorem MemOp.wfIn_iff {p : Prefixes} {m : MemOp} : m.wfIn p = true ↔ m.wf = true ∧ m.is16 = p.addr16 := by
  rw [MemOp.wfIn, Bool.and_eq_true, beq_iff_eq]

theorem takeModRM_yields (p : Prefixes) (bs : List Byte) :
    Yields (takeModRM p bs) fun (_, rm, rest) => rm.wfIn p = true ∧ rest <:+ bs := by
  refine (take8_suffix bs).bind fun (_, bs') hbs' => .ite (fun _ => ?reg) fun _ =>
    .ite (fun h16 => ?mem16) fun h32 => ?mem32
  case reg => exact .ok ⟨rfl, hbs'⟩
  case mem16 =>
    refine (takeMem16_yields _ _ bs').bind fun _ ⟨⟨hwf, his⟩, hrest⟩ =>
      .ok ⟨MemOp.wfIn_iff.mpr ⟨hwf, ?_⟩, hrest.trans hbs'⟩
    rw [his, h16]
  case mem32 =>
    refine (takeMem32_yields _ _ bs').bind fun _ ⟨⟨hwf, his⟩, hrest⟩ =>
      .ok ⟨MemOp.wfIn_iff.mpr ⟨hwf, ?_⟩, hrest.trans hbs'⟩
    rw [his, eq_false_of_ne_true h32]

theorem memOnly_yields {p : Prefixes} {rm : RM} (h : rm.wfIn p = true) :
    Yields (memOnly rm) fun m => m.wfIn p = true := by
  cases rm with
  | reg _ => exact .error
  | mem _ => exact .ok h

theorem farOffWf_iff {p : Prefixes} {off : Word} : farOffWf p off = true ↔ (p.op16 = true → off.toNat < 65536) := by
  cases h : p.op16 <;> simp [farOffWf, h]

theorem takeFar_yields (p : Prefixes) (bs : List Byte) :
    Yields (takeFar p bs) fun (off, _, rest) => farOffWf p off = true ∧ rest <:+ bs := by
  refine .ite (fun _ => ?off16) fun h32 => ?off32
  case off16 =>
    refine (take16_suffix bs).bind fun (off, bs') hbs' => (take16_suffix bs').bind fun _ hrest =>
      .ok ⟨farOffWf_iff.mpr fun _ => ?_, hrest.trans hbs'⟩
    rw [BitVec.toNat_setWidth_of_le (by decide)]
    exact off.isLt
  case off32 =>
    exact (take32_suffix bs).bind fun (_, bs') hbs' => (take16_suffix bs').bind fun _ hrest =>
      .ok ⟨farOffWf_iff.mpr fun h16 => absurd h16 h32, hrest.trans hbs'⟩

/-! ## Opcodes and instructions -/

/-- An opcode has at least one byte. -/
theorem takeOpcode_yields (bs : List Byte) : Yields (takeOpcode bs) fun (_, rest) => ∃ b, b :: rest <:+ bs := by
  refine (take8_yields bs).bind fun (b, bs') hbs => .ite (fun _ => ?twoBytes) fun _ => ?oneByte
  case twoBytes =>
    refine (take8_yields bs').bind fun (c, rest) hbs' => .bind_of_forall fun _ => .ok ⟨c, ?_⟩
    rw [hbs, hbs']
    exact List.suffix_cons b (c :: rest)
  case oneByte => exact .bind_of_forall fun _ => .ok ⟨b, hbs ▸ List.suffix_rfl⟩

theorem ofGroup00_yields {p : Prefixes} {rm : RM} (reg : BitVec 3) (h : rm.wfIn p = true) :
    Yields (ofGroup00 p reg rm) fun i => i.wf = true :=
  .ite (fun _ => .ok h) fun _ => .ite (fun _ => .ok h) fun _ => .ite (fun _ => .ok h) fun _ =>
  .ite (fun _ => .ok h) fun _ => .error

theorem ofGroup01_yields {p : Prefixes} {rm : RM} (reg : BitVec 3) (h : rm.wfIn p = true) :
    Yields (ofGroup01 p reg rm) fun i => i.wf = true :=
  .ite (fun _ => (memOnly_yields h).bind fun _ hm => .ok hm) fun _ =>
  .ite (fun _ => (memOnly_yields h).bind fun _ hm => .ok hm) fun _ => .error

theorem ofGroupFF_yields {p : Prefixes} {rm : RM} (reg : BitVec 3) (h : rm.wfIn p = true) :
    Yields (ofGroupFF p reg rm) fun i => i.wf = true :=
  .ite (fun _ => (memOnly_yields h).bind fun _ hm => .ok hm) fun _ =>
  .ite (fun _ => (memOnly_yields h).bind fun _ hm => .ok hm) fun _ => .error

theorem ofPush_wf (p : Prefixes) (s : SegName) : (ofPush p s).wf = true := by cases s <;> rfl

theorem ofPop_yields (p : Prefixes) (s : SegName) : Yields (ofPop p s) fun i => i.wf = true := by
  cases s with
  | cs => exact .error
  | es | ss | ds | fs | gs => exact .ok rfl

/-- Row by row of the table: the operands are well-formed, so the instruction is. -/
theorem takeOperands_yields (p : Prefixes) (op : Opcode) (bs : List Byte) :
    Yields (takeOperands p op bs) fun (i, rest) => i.wf = true ∧ rest <:+ bs := by
  cases op with
  | group00 =>
    exact (takeModRM_yields p bs).bind fun (reg, _, _) ⟨hrm, hrest⟩ =>
      (ofGroup00_yields reg hrm).bind fun _ hi => .ok ⟨hi, hrest⟩
  | group01 =>
    exact (takeModRM_yields p bs).bind fun (reg, _, _) ⟨hrm, hrest⟩ =>
      (ofGroup01_yields reg hrm).bind fun _ hi => .ok ⟨hi, hrest⟩
  | groupFF =>
    exact (takeModRM_yields p bs).bind fun (reg, _, _) ⟨hrm, hrest⟩ =>
      (ofGroupFF_yields reg hrm).bind fun _ hi => .ok ⟨hi, hrest⟩
  | movToSreg =>
    exact (takeModRM_yields p bs).bind fun _ ⟨hrm, hrest⟩ => .bind_of_forall fun _ =>
      .ite (fun _ => .error) fun hcs => .ok ⟨Bool.and_eq_true_iff.mpr ⟨bne_iff_ne.mpr hcs, hrm⟩, hrest⟩
  | movFromSreg =>
    exact (takeModRM_yields p bs).bind fun _ ⟨hrm, hrest⟩ => .bind_of_forall fun _ => .ok ⟨hrm, hrest⟩
  | lds | lss | lfs | lgs =>
    exact (takeModRM_yields p bs).bind fun _ ⟨hrm, hrest⟩ =>
      (memOnly_yields hrm).bind fun _ hm => .ok ⟨hm, hrest⟩
  | lar | lsl => exact (takeModRM_yields p bs).bind fun _ ⟨hrm, hrest⟩ => .ok ⟨hrm, hrest⟩
  | callPtr | jmpPtr => exact (takeFar_yields p bs).bind fun _ ⟨hoff, hrest⟩ => .ok ⟨hoff, hrest⟩
  | push s => exact .ok ⟨ofPush_wf p s, List.suffix_rfl⟩
  | pop s => exact (ofPop_yields p s).bind fun _ hi => .ok ⟨hi, List.suffix_rfl⟩

/-- The opcode's byte lies before the operands, so the bytes taken are not empty. -/
theorem decode_yields (bs : List Byte) :
    Yields (decode bs) fun (i, rest) => i.wf = true ∧ ∃ front, front ≠ [] ∧ bs = front ++ rest := by
  refine (takeOpcode_yields _).bind fun (_, _) ⟨b, hop⟩ =>
    (takeOperands_yields _ _ _).mono fun (_, _) ⟨hwf, hrest⟩ => ⟨hwf, ?_⟩
  obtain ⟨operands, rfl⟩ := hrest
  obtain ⟨leading, hbs⟩ := hop.trans (takeLeading_suffix _ bs)
  exact ⟨leading ++ b :: operands, by simp, by rw [← hbs, List.append_assoc, List.cons_append]⟩

/-- Settles O47: what `decode` answers, piece by piece of the decoder. -/
theorem decodedIsWellFormed : Obligations.DecodedIsWellFormed := fun bs rest i h => decode_yields bs (i, rest) h

end Sys2Proof
end
